-- ==== Sys2Proof/Word.lean ====
section
/-! DEFINITION. The two word types of the core: bytes and 16-bit words (`00_scope.md` R6, R10).
Everything that cuts a field out of them, extends them or joins them stands in `Decode.lean`. -/

namespace Sys2Proof

/-- An unsigned 8-bit value: memory cells and the registers `A`, `X`, `Y`, `SP`, `P`. -/
abbrev Byte := BitVec 8

/-- An unsigned 16-bit value: `PC` and every address. -/
abbrev Word := BitVec 16

end Sys2Proof
end

