-- ==== Sys2Proof/Config.lean ====
section
/-! DEFINITION. What the spec leaves to the implementation: the three parameters of
`00_scope.md` R7 and what an unlisted memory byte reads as. There is no free value: every step of
every state is determined (`44_step_engine_and_halt.md` R209). -/

namespace Sys2Proof

/-- The three named parameters the model takes (`00_scope.md` R7). -/
structure Params where
  /-- `HALT_OPCODE`: the byte that is HLT, or absent (`30_encoding.md` R83). -/
  haltOpcode : Option Byte
  /-- `SP_RESET`: the value of `SP` after reset (`10_state.md` R39). -/
  spReset : Byte
  /-- `HALT_CYCLES`: the cycle count an executed HLT returns. -/
  haltCycles : Nat
  deriving DecidableEq, Repr

/-- The values the spec takes for the three parameters (`00_scope.md` R7, last column).
DESIGN CHOICE, the spec's own: D7 and D16 (log 1, 2, 3). -/
def Config.params : Params := { haltOpcode := some 0x00, spReset := 0xFD, haltCycles := 2 }

/-- What an address the memory does not list reads as: zero, the spec's example of the
collaborator's defined behaviour and what its test programs assume (`70_reset_and_hazards.md`
R254). DESIGN CHOICE (log 4). -/
def Config.unlistedByte : Byte := 0x00

end Sys2Proof
end

