-- ==== Sys2Proof/Syntax.lean ====
section
/-! DEFINITION. The instructions of the core, one constructor for every mnemonic of
`spec/opcode_table.json`, with the operand forms of `40_address_resolver.md` R102 and
`42_group2_shift_incdec_transfer.md` R140. -/

namespace Sys2Proof

/-- An operand mode with the operand bytes that follow the opcode (`40_address_resolver.md`
R103 to R110); a 16-bit operand is already assembled from its two bytes (`30_encoding.md` R74). -/
inductive Mode where
  /-- `(zp,X)`, `sel` 0. -/
  | indX (lo : Byte)
  /-- `zp`, `sel` 1. -/
  | zp (lo : Byte)
  /-- `#imm`, `sel` 2. -/
  | imm (v : Byte)
  /-- `abs`, `sel` 3. -/
  | abs (addr : Word)
  /-- `(zp),Y`, `sel` 4. -/
  | indY (lo : Byte)
  /-- `zp,X`, `sel` 5. -/
  | zpX (lo : Byte)
  /-- `abs,Y`, `sel` 6. -/
  | absY (base : Word)
  /-- `abs,X`, `sel` 7. -/
  | absX (base : Word)
  deriving DecidableEq, Repr

/-- Where a shift or rotate takes its value and leaves its result
(`42_group2_shift_incdec_transfer.md` R140). -/
inductive ShiftOperand where
  /-- The accumulator form, class `Acc`. -/
  | acc
  /-- The memory form, class `Mem`. -/
  | mem (m : Mode)
  deriving DecidableEq, Repr

/-- The instructions. The mnemonic of each constructor is in `LAWS.json`. -/
inductive Instr where
  | ora (m : Mode)
  | and (m : Mode)
  | eor (m : Mode)
  | adc (m : Mode)
  | sta (m : Mode)
  | lda (m : Mode)
  | cmp (m : Mode)
  | sbc (m : Mode)
  | asl (o : ShiftOperand)
  | rol (o : ShiftOperand)
  | lsr (o : ShiftOperand)
  | ror (o : ShiftOperand)
  | dec (m : Mode)
  | inc (m : Mode)
  | tax
  | tay
  | txa
  | tya
  | tsx
  | txs
  /-- The eight branches carry their offset byte, read as a signed number by the branch. -/
  | bpl (off : Byte)
  | bmi (off : Byte)
  | bvc (off : Byte)
  | bvs (off : Byte)
  | bcc (off : Byte)
  | bcs (off : Byte)
  | bne (off : Byte)
  | beq (off : Byte)
  | clc
  | sec
  | cli
  | sei
  | clv
  | cld
  | sed
  | bit (m : Mode)
  /-- HLT, the byte `HALT_OPCODE` (`30_encoding.md` R83). -/
  | hlt
  /-- A byte of class `BadOpcode` (`30_encoding.md` R84). -/
  | illegalOpcode (b : Byte)
  /-- A byte of class `BadMode` (`30_encoding.md` R85). -/
  | illegalMode (b : Byte)
  deriving DecidableEq, Repr

end Sys2Proof
end

