-- ==== Sys2Proof/WellFormed.lean ====
section
/-! DEFINITION. Which instructions exist: the mode pairings of `40_address_resolver.md` R112 and
the illegal bytes of `30_encoding.md` R84 and R85, copied from the spec's lists and not from the
decoder. -/

namespace Sys2Proof

/-- The modes of STA: all but immediate (`40_address_resolver.md` R112). -/
def Mode.storable : Mode → Bool
  | .imm _ => false
  | _ => true

/-- The memory forms of the shifts, rotates, DEC and INC: `zp`, `abs`, `zp,X`, `abs,X`
(`40_address_resolver.md` R112). -/
def Mode.modifiable : Mode → Bool
  | .zp _ | .abs _ | .zpX _ | .absX _ => true
  | _ => false

/-- The modes of BIT: `zp` and `abs` (`40_address_resolver.md` R112). -/
def Mode.bitTestable : Mode → Bool
  | .zp _ | .abs _ => true
  | _ => false

/-- A shift or rotate takes the accumulator or one of four memory modes. -/
def ShiftOperand.supported : ShiftOperand → Bool
  | .acc => true
  | .mem m => m.modifiable

/-- The unassigned bytes of group 2, opClass 4 and 5 (`30_encoding.md` R84). -/
def badOpcodesGroup2 : List Byte :=
  [0x82, 0x86, 0x8E, 0x92, 0x96, 0x9E, 0xA2, 0xA6, 0xAE, 0xB2, 0xB6, 0xBE]

/-- The unassigned bytes of group 0 (`30_encoding.md` R84), 0x00 among them. -/
def badOpcodesGroup0 : List Byte :=
  [0x00, 0x04, 0x08, 0x0C, 0x14, 0x1C, 0x20, 0x28, 0x34, 0x3C, 0x40, 0x44, 0x48, 0x4C, 0x54] ++
  [0x5C, 0x60, 0x64, 0x68, 0x6C, 0x74, 0x7C, 0x80, 0x84, 0x88, 0x8C, 0x94, 0x9C, 0xA0, 0xA4] ++
  [0xAC, 0xB4, 0xBC, 0xC0, 0xC4, 0xC8, 0xCC, 0xD4, 0xDC, 0xE0, 0xE4, 0xE8, 0xEC, 0xF4, 0xFC]

/-- The bytes of class `BadOpcode` when no halt opcode is taken out of them (`30_encoding.md`
R84): all of group 3, twelve bytes of group 2, forty-five of group 0. -/
def isBadOpcode (b : Byte) : Bool :=
  b &&& 0x03 == 0x03 || badOpcodesGroup2.elem b || badOpcodesGroup0.elem b

/-- The bytes of class `BadMode` (`30_encoding.md` R85): STA immediate, the shifts and rotates
with `sel` 0, 4, 6, DEC and INC with `sel` 0, 2, 4, 6. -/
def badModes : List Byte :=
  [0x89, 0x02, 0x12, 0x1A, 0x22, 0x32, 0x3A, 0x42, 0x52, 0x5A, 0x62, 0x72, 0x7A] ++
  [0xC2, 0xCA, 0xD2, 0xDA, 0xE2, 0xEA, 0xF2, 0xFA]

/-- `b` is one of the 21 bytes of class `BadMode`. -/
def isBadMode (b : Byte) : Bool := badModes.elem b

/-- `b` is none of the 114 assigned bytes. -/
def isUnassigned (b : Byte) : Bool := isBadOpcode b || isBadMode b

/-- The constraint of `00_scope.md` R7: `HALT_OPCODE`, when present, is an unassigned byte. -/
def Params.valid (p : Params) : Bool := p.haltOpcode.all isUnassigned

/-- An instruction of the core whose halt opcode is `halt`: the operand mode is one the operation
has, HLT has a byte, and an illegal byte is illegal. -/
def Instr.wfFor (halt : Option Byte) : Instr → Bool
  | .sta m => m.storable
  | .asl o | .rol o | .lsr o | .ror o => o.supported
  | .dec m | .inc m => m.modifiable
  | .bit m => m.bitTestable
  | .hlt => halt.any isUnassigned
  | .illegalOpcode b => isBadOpcode b && halt != some b
  | .illegalMode b => isBadMode b && halt != some b
  | .ora _ | .and _ | .eor _ | .adc _ | .lda _ | .cmp _ | .sbc _ => true
  | .tax | .tay | .txa | .tya | .tsx | .txs => true
  | .bpl _ | .bmi _ | .bvc _ | .bvs _ | .bcc _ | .bcs _ | .bne _ | .beq _ => true
  | .clc | .sec | .cli | .sei | .clv | .cld | .sed => true

/-- Well-formed under the parameter values the spec takes. -/
def Instr.wf (i : Instr) : Bool := i.wfFor Config.params.haltOpcode

end Sys2Proof
end

