-- ==== Sys2Proof/Decode.lean ====
section
/-! DEFINITION. The opcode decoder of `30_encoding.md`: `Decode` (R71), `Classify` (R77), operand
assembly (R74), and after them the encoder, written from the opcode map of R75, R76, R79 and R83.
`halt` is the parameter `HALT_OPCODE` throughout. -/

namespace Sys2Proof

/-! ## Joining, cutting and extending words (`00_scope.md` R10) -/

/-- `zext_16`: a byte as a word whose high byte is zero. -/
def zext (b : Byte) : Word := b.setWidth 16

/-- `{hi, lo} = lo | hi << 8`: two bytes as a word (`20_memory.md` R53). -/
def wordOf (hi lo : Byte) : Word := zext lo ||| zext hi <<< 8

/-- The low byte of a word, the one at the lower address. -/
def loByte (w : Word) : Byte := w.setWidth 8

/-- The high byte of a word: its page. -/
def hiByte (w : Word) : Byte := (w >>> 8).setWidth 8

/-! ## `Decode` -/

/-- The three fields of the opcode byte `aaabbbcc` (`30_encoding.md` R70). -/
structure DecodedOpcode where
  group : Nat
  opClass : Nat
  addrSel : Nat
  deriving DecidableEq, Repr

/-- `Decode(b)` (`30_encoding.md` R71): `group = b[1:0]`, `addrSel = b[4:2]`, `opClass = b[7:5]`.
It cannot fail. -/
def decodeFields (b : Byte) : DecodedOpcode :=
  { group := (b &&& 0x03).toNat
    opClass := ((b >>> 5) &&& 0x07).toNat
    addrSel := ((b >>> 2) &&& 0x07).toNat }

/-! ## `Classify` -/

/-- The eight addressing modes without their operand bytes, in the order of `addrSel`. -/
inductive ModeKind where
  | indX | zp | imm | abs | indY | zpX | absY | absX
  deriving DecidableEq, Repr

/-- The operations of class `Mem`. -/
inductive MemOp where
  | ora | and | eor | adc | sta | lda | cmp | sbc
  | asl | rol | lsr | ror | dec | inc | bit
  deriving DecidableEq, Repr

/-- The operations of class `Acc`. -/
inductive AccOp where
  | asl | rol | lsr | ror
  deriving DecidableEq, Repr

/-- The operations of class `Impl`: transfers and flag operations. -/
inductive ImplOp where
  | tax | tay | txa | tya | tsx | txs | clc | sec | cli | sei | clv | cld | sed
  deriving DecidableEq, Repr

/-- The branches, class `Rel`. -/
inductive RelOp where
  | bpl | bmi | bvc | bvs | bcc | bcs | bne | beq
  deriving DecidableEq, Repr

/-- The classes of `30_encoding.md` R77. -/
inductive OpcodeClass where
  | mem (op : MemOp) (kind : ModeKind)
  | acc (op : AccOp)
  | impl (op : ImplOp)
  | rel (op : RelOp)
  | halt
  | badMode
  | badOpcode
  deriving DecidableEq, Repr

/-- The mode of an `addrSel` value (`40_address_resolver.md` R102). -/
def ModeKind.ofSel (sel : Nat) : ModeKind :=
  match sel with
  | 0 => .indX
  | 1 => .zp
  | 2 => .imm
  | 3 => .abs
  | 4 => .indY
  | 5 => .zpX
  | 6 => .absY
  | _ => .absX

/-- Group 1: the operation is `opClass`, every mode is assigned but STA immediate
(`30_encoding.md` R75). -/
def classifyGroup1 (opClass : Nat) (kind : ModeKind) : OpcodeClass :=
  match opClass with
  | 0 => .mem .ora kind
  | 1 => .mem .and kind
  | 2 => .mem .eor kind
  | 3 => .mem .adc kind
  | 4 => if kind = .imm then .badMode else .mem .sta kind
  | 5 => .mem .lda kind
  | 6 => .mem .cmp kind
  | _ => .mem .sbc kind

/-- A read-modify-write operation of group 2 in one of its memory forms, `sel` 1, 3, 5, 7
(`30_encoding.md` R76); any other `sel` is `other`. -/
def classifyModify (op : MemOp) (kind : ModeKind) (other : OpcodeClass) : OpcodeClass :=
  match kind with
  | .zp | .abs | .zpX | .absX => .mem op kind
  | _ => other

/-- A shift or rotate of group 2: the memory forms and the accumulator form at `sel` 2. -/
def classifyShift (op : MemOp) (acc : AccOp) (kind : ModeKind) : OpcodeClass :=
  classifyModify op kind (if kind = .imm then .acc acc else .badMode)

/-- Group 2 (`30_encoding.md` R76): rows 4 and 5 hold only TXA, TXS, TAX and TSX. -/
def classifyGroup2 (opClass sel : Nat) : OpcodeClass :=
  match opClass with
  | 0 => classifyShift .asl .asl (.ofSel sel)
  | 1 => classifyShift .rol .rol (.ofSel sel)
  | 2 => classifyShift .lsr .lsr (.ofSel sel)
  | 3 => classifyShift .ror .ror (.ofSel sel)
  | 4 => if sel = 2 then .impl .txa else if sel = 6 then .impl .txs else .badOpcode
  | 5 => if sel = 2 then .impl .tax else if sel = 6 then .impl .tsx else .badOpcode
  | 6 => classifyModify .dec (.ofSel sel) .badMode
  | _ => classifyModify .inc (.ofSel sel) .badMode

/-- Column `sel = 4` of group 0: the branches (`30_encoding.md` R80). -/
def branchOf (opClass : Nat) : RelOp :=
  match opClass with
  | 0 => .bpl
  | 1 => .bmi
  | 2 => .bvc
  | 3 => .bvs
  | 4 => .bcc
  | 5 => .bcs
  | 6 => .bne
  | _ => .beq

/-- Column `sel = 6` of group 0: the flag operations and TYA (`30_encoding.md` R81, R82). -/
def impliedOf (opClass : Nat) : ImplOp :=
  match opClass with
  | 0 => .clc
  | 1 => .sec
  | 2 => .cli
  | 3 => .sei
  | 4 => .tya
  | 5 => .clv
  | 6 => .cld
  | _ => .sed

/-- Group 0 (`30_encoding.md` R79): BIT at `opClass` 1, TAY at `opClass` 5, and two full
columns. -/
def classifyGroup0 (opClass sel : Nat) : OpcodeClass :=
  match sel with
  | 1 => if opClass = 1 then .mem .bit .zp else .badOpcode
  | 2 => if opClass = 5 then .impl .tay else .badOpcode
  | 3 => if opClass = 1 then .mem .bit .abs else .badOpcode
  | 4 => .rel (branchOf opClass)
  | 6 => .impl (impliedOf opClass)
  | _ => .badOpcode

/-- `Classify(b)` with no halt opcode (`30_encoding.md` R77). -/
def classifyAssigned (b : Byte) : OpcodeClass :=
  let d := decodeFields b
  match d.group with
  | 0 => classifyGroup0 d.opClass d.addrSel
  | 1 => classifyGroup1 d.opClass (.ofSel d.addrSel)
  | 2 => classifyGroup2 d.opClass d.addrSel
  | _ => .badOpcode

/-- `Classify(b)`: the halt opcode is taken out of the illegal bytes and out of no other
(`30_encoding.md` R77, R83). A `halt` that names an assigned byte breaks the constraint of
`00_scope.md` R7 and has no effect (log 9). -/
def classify (halt : Option Byte) (b : Byte) : OpcodeClass :=
  match classifyAssigned b with
  | .badMode => if halt = some b then .halt else .badMode
  | .badOpcode => if halt = some b then .halt else .badOpcode
  | cls => cls

/-! ## Operand assembly -/

/-- The bytes of a memory-operand instruction (`30_encoding.md` R73). -/
def ModeKind.length : ModeKind → Nat
  | .abs | .absY | .absX => 3
  | _ => 2

/-- How many bytes of the instruction stream a class takes (`30_encoding.md` R72, R73). An
illegal byte has no length: it is examined alone (R87). -/
def OpcodeClass.length : OpcodeClass → Nat
  | .mem _ kind => kind.length
  | .rel _ => 2
  | .acc _ | .impl _ | .halt | .badMode | .badOpcode => 1

/-- A mode with its operand bytes, `lo` first (`30_encoding.md` R74); a mode of one operand byte
ignores `hi`. -/
def ModeKind.withBytes (kind : ModeKind) (lo hi : Byte) : Mode :=
  match kind with
  | .indX => .indX lo
  | .zp => .zp lo
  | .imm => .imm lo
  | .abs => .abs (wordOf hi lo)
  | .indY => .indY lo
  | .zpX => .zpX lo
  | .absY => .absY (wordOf hi lo)
  | .absX => .absX (wordOf hi lo)

/-- The instruction of a memory-operand operation. -/
def MemOp.instr (op : MemOp) (m : Mode) : Instr :=
  match op with
  | .ora => .ora m
  | .and => .and m
  | .eor => .eor m
  | .adc => .adc m
  | .sta => .sta m
  | .lda => .lda m
  | .cmp => .cmp m
  | .sbc => .sbc m
  | .asl => .asl (.mem m)
  | .rol => .rol (.mem m)
  | .lsr => .lsr (.mem m)
  | .ror => .ror (.mem m)
  | .dec => .dec m
  | .inc => .inc m
  | .bit => .bit m

/-- The accumulator form of a shift or rotate. -/
def AccOp.instr : AccOp → Instr
  | .asl => .asl .acc
  | .rol => .rol .acc
  | .lsr => .lsr .acc
  | .ror => .ror .acc

/-- The instruction of an implied operation. -/
def ImplOp.instr : ImplOp → Instr
  | .tax => .tax
  | .tay => .tay
  | .txa => .txa
  | .tya => .tya
  | .tsx => .tsx
  | .txs => .txs
  | .clc => .clc
  | .sec => .sec
  | .cli => .cli
  | .sei => .sei
  | .clv => .clv
  | .cld => .cld
  | .sed => .sed

/-- The branch with its offset byte. -/
def RelOp.instr (op : RelOp) (off : Byte) : Instr :=
  match op with
  | .bpl => .bpl off
  | .bmi => .bmi off
  | .bvc => .bvc off
  | .bvs => .bvs off
  | .bcc => .bcc off
  | .bcs => .bcs off
  | .bne => .bne off
  | .beq => .beq off

/-- The instruction of a class, from the opcode byte and the two bytes after it. -/
def OpcodeClass.instr (cls : OpcodeClass) (op lo hi : Byte) : Instr :=
  match cls with
  | .mem o kind => o.instr (kind.withBytes lo hi)
  | .acc o => o.instr
  | .impl o => o.instr
  | .rel o => o.instr lo
  | .halt => .hlt
  | .badMode => .illegalMode op
  | .badOpcode => .illegalOpcode op

/-- The instruction at an opcode byte, given the two bytes after it; total. -/
def decodeBytes (halt : Option Byte) (op lo hi : Byte) : Instr :=
  (classify halt op).instr op lo hi

/-- Why a list of bytes holds no whole instruction. The machine never meets one: it always has
the three bytes from `PC` on (log 23). -/
inductive DecodeError where
  /-- There is no opcode byte. -/
  | noBytes
  /-- The operand bytes of this opcode are missing. -/
  | truncated (op : Byte)
  deriving DecidableEq, Repr

/-- The instruction at the head of a list of bytes, with the bytes after it. -/
def decodeFor (halt : Option Byte) : List Byte → Except DecodeError (Instr × List Byte)
  | [] => .error .noBytes
  | op :: rest =>
    match (classify halt op).length, rest with
    | 1, rest => .ok (decodeBytes halt op 0 0, rest)
    | 2, lo :: rest => .ok (decodeBytes halt op lo 0, rest)
    | 3, lo :: hi :: rest => .ok (decodeBytes halt op lo hi, rest)
    | _, _ => .error (.truncated op)

/-- The decoder under the parameter values the spec takes. -/
def decode (bytes : List Byte) : Except DecodeError (Instr × List Byte) :=
  decodeFor Config.params.haltOpcode bytes

/-- Byte `k` of a number that holds an instruction's bytes, the first byte lowest. -/
def byteOfWord (w k : Nat) : Byte := BitVec.ofNat 8 (w / 256 ^ k)

/-- The instruction the decoder reads from a table word of `nbits` bits, the bits above them
zero. -/
def decodeTableWord (nbits w : Nat) : Option Instr :=
  let v := w % 2 ^ nbits
  match decode [byteOfWord v 0, byteOfWord v 1, byteOfWord v 2] with
  | .ok (i, _) => some i
  | .error _ => none

/-! ## The encoder -/

/-- `b = opClass << 5 | addrSel << 2 | group` (`30_encoding.md` R71). -/
def opcodeByte (opClass sel group : Nat) : Byte :=
  BitVec.ofNat 8 (opClass <<< 5 ||| sel <<< 2 ||| group)

/-- The `addrSel` of a mode (`40_address_resolver.md` R102). -/
def Mode.sel : Mode → Nat
  | .indX _ => 0
  | .zp _ => 1
  | .imm _ => 2
  | .abs _ => 3
  | .indY _ => 4
  | .zpX _ => 5
  | .absY _ => 6
  | .absX _ => 7

/-- The operand bytes of a mode, in ascending address order (`30_encoding.md` R72, R74). -/
def Mode.bytes : Mode → List Byte
  | .indX b | .zp b | .imm b | .indY b | .zpX b => [b]
  | .abs w | .absY w | .absX w => [loByte w, hiByte w]

/-- The length of an instruction with this operand mode (`40_address_resolver.md` R102). -/
def Mode.length : Mode → Nat
  | .abs _ | .absY _ | .absX _ => 3
  | .indX _ | .zp _ | .imm _ | .indY _ | .zpX _ => 2

/-- The length of an instruction (`30_encoding.md` R72, R73); of an illegal byte, which has none
(R87), the one byte that is examined. -/
def Instr.length : Instr → Nat
  | .ora m | .and m | .eor m | .adc m | .sta m | .lda m | .cmp m | .sbc m => m.length
  | .asl o | .rol o | .lsr o | .ror o => match o with
    | .acc => 1
    | .mem m => m.length
  | .dec m | .inc m | .bit m => m.length
  | .tax | .tay | .txa | .tya | .tsx | .txs => 1
  | .bpl _ | .bmi _ | .bvc _ | .bvs _ | .bcc _ | .bcs _ | .bne _ | .beq _ => 2
  | .clc | .sec | .cli | .sei | .clv | .cld | .sed => 1
  | .hlt | .illegalOpcode _ | .illegalMode _ => 1

/-- A group 1 instruction (`30_encoding.md` R75). -/
def encodeGroup1 (opClass : Nat) (m : Mode) : List Byte := opcodeByte opClass m.sel 1 :: m.bytes

/-- A memory form of group 2 (`30_encoding.md` R76). -/
def encodeModify (opClass : Nat) (m : Mode) : List Byte := opcodeByte opClass m.sel 2 :: m.bytes

/-- A shift or rotate: the accumulator form is `sel` 2 (`30_encoding.md` R76). -/
def encodeShift (opClass : Nat) : ShiftOperand → List Byte
  | .acc => [opcodeByte opClass 2 2]
  | .mem m => encodeModify opClass m

/-- A branch: `b[4:0] = 0b10000`, `opClass[2:1]` the flag in the order N V C Z, `opClass[0]` the
value it must have (`30_encoding.md` R80). -/
def encodeBranch (flagCode wanted : Nat) (off : Byte) : List Byte :=
  [opcodeByte (2 * flagCode + wanted) 4 0, off]

/-- The bytes of an instruction when the halt opcode is `halt`. An HLT without a halt opcode has
none; it is not well-formed. -/
def encodeFor (halt : Option Byte) : Instr → List Byte
  | .ora m => encodeGroup1 0 m
  | .and m => encodeGroup1 1 m
  | .eor m => encodeGroup1 2 m
  | .adc m => encodeGroup1 3 m
  | .sta m => encodeGroup1 4 m
  | .lda m => encodeGroup1 5 m
  | .cmp m => encodeGroup1 6 m
  | .sbc m => encodeGroup1 7 m
  | .asl o => encodeShift 0 o
  | .rol o => encodeShift 1 o
  | .lsr o => encodeShift 2 o
  | .ror o => encodeShift 3 o
  | .dec m => encodeModify 6 m
  | .inc m => encodeModify 7 m
  | .txa => [0x8A]
  | .txs => [0x9A]
  | .tax => [0xAA]
  | .tsx => [0xBA]
  | .tya => [0x98]
  | .tay => [0xA8]
  | .bpl off => encodeBranch 0 0 off
  | .bmi off => encodeBranch 0 1 off
  | .bvc off => encodeBranch 1 0 off
  | .bvs off => encodeBranch 1 1 off
  | .bcc off => encodeBranch 2 0 off
  | .bcs off => encodeBranch 2 1 off
  | .bne off => encodeBranch 3 0 off
  | .beq off => encodeBranch 3 1 off
  | .clc => [0x18]
  | .sec => [0x38]
  | .cli => [0x58]
  | .sei => [0x78]
  | .clv => [0xB8]
  | .cld => [0xD8]
  | .sed => [0xF8]
  | .bit m => opcodeByte 1 m.sel 0 :: m.bytes
  | .hlt => halt.toList
  | .illegalOpcode b => [b]
  | .illegalMode b => [b]

/-- The bytes of an instruction under the parameter values the spec takes. -/
def encode (i : Instr) : List Byte := encodeFor Config.params.haltOpcode i

end Sys2Proof
end

