-- ==== Sys2Proof/Machine/State.lean ====
section
/-! DEFINITION. The state of the machine: the seven items of `10_state.md` R20 and the memory of
`20_memory.md` R50, as plain data; the ways a step can stop; the state after reset. -/

namespace Sys2Proof.Machine

/-- The address space as the bytes that differ from what an unlisted address reads as, addresses
strictly rising (`Memory.wf` in `Ops.lean`). -/
abbrev Memory := List Host.Cell

/-- The whole state. -/
structure State where
  /-- `A`, the accumulator (`10_state.md` R21). -/
  a : Byte
  /-- `X`, index register (`10_state.md` R22). -/
  x : Byte
  /-- `Y`, index register (`10_state.md` R23). -/
  y : Byte
  /-- `SP`, inert but for TSX and TXS (`10_state.md` R25). -/
  sp : Byte
  /-- `PC`, between steps the address of the next opcode byte (`10_state.md` R26, R27). -/
  pc : Word
  /-- `P`, eight flags (`10_state.md` R30). -/
  p : Byte
  /-- `halted`, set only by HLT (`10_state.md` R36). -/
  halted : Bool
  /-- The 65536 bytes of the address space (`20_memory.md` R50). -/
  mem : Memory
  deriving DecidableEq, Repr

/-- The three errors of a step, a closed set (`60_exceptions.md` R230). Each is reported to the
host and commits nothing (R234); each is the machine's own report, so none is a gap (safe). -/
inductive Fault where
  /-- Raised by an opcode byte of class `BadOpcode`, through the meaning of `illegalOpcode`
  (`60_exceptions.md` R231). Safe. -/
  | illegalOpcode
  /-- Raised by an opcode byte of class `BadMode`, through the meaning of `illegalMode`, and by
  the meaning of an operation paired with a mode it does not have, which no byte decodes to
  (`60_exceptions.md` R232; log 8). Safe. -/
  | illegalAddressingMode
  /-- Raised by the step itself when `halted` is set (`60_exceptions.md` R233). Safe. -/
  | haltedViolation
  deriving DecidableEq, Repr

/-- The reasons the model gives an instruction no meaning. -/
inductive Refusal where
  /-- An arm of `exec` that has no meaning yet; no arm uses it. Safe. -/
  | notModelled (mnemonic : String)
  deriving DecidableEq, Repr

/-- The outcome of an instruction or a step. -/
abbrev Result := Host.Outcome State Fault Refusal

/-- The state after reset with the given parameters and launch memory `MEM_INIT`: registers and
flags zero, `SP = SP_RESET`, not halted (`10_state.md` R39, `70_reset_and_hazards.md` R251,
R254). -/
def State.launch (params : Params) (memInit : Memory) : State :=
  { a := 0, x := 0, y := 0, sp := params.spReset, pc := 0, p := 0, halted := false,
    mem := memInit }

/-- The machine right after reset, with the parameter values the spec takes and nothing in
memory (log 2, 4). -/
def State.reset : State := State.launch Config.params []

end Sys2Proof.Machine
end

