-- ==== Sys2Proof/Machine/Ops.lean ====
section
/-! DEFINITION. The operations every meaning is built from: memory reads and writes, register
writes, the commit of `PC`, raising an error. -/

namespace Sys2Proof.Machine

/-! ## Memory -/

/-- The addresses of a memory rise strictly from `lo` on and stay below 65536, and no cell holds
what an unlisted address reads as. -/
def Memory.wfFrom (lo : Nat) : Memory → Bool
  | [] => true
  | (a, v) :: rest =>
    decide (lo ≤ a) && decide (a < 65536) && decide (v ≠ Config.unlistedByte) &&
      Memory.wfFrom (a + 1) rest

/-- The canonical form of a memory: equal contents are equal lists. -/
def Memory.wf (m : Memory) : Bool := Memory.wfFrom 0 m

/-- The byte at key `k`. The search ends at the first larger key, so that a list out of order
still reads as one memory (log 25). -/
def Memory.readKey (k : Nat) : Memory → Byte
  | [] => Config.unlistedByte
  | (a, v) :: rest =>
    if k < a then Config.unlistedByte else if k = a then v else Memory.readKey k rest

/-- A cell for key `k` holding `v`, in front of cells with larger keys: no cell at all when `v` is
what an unlisted address reads as. -/
def Memory.consCell (k : Nat) (v : Byte) (rest : Memory) : Memory :=
  if v = Config.unlistedByte then rest else (k, v) :: rest

/-- The memory with `v` at key `k`. -/
def Memory.writeKey (k : Nat) (v : Byte) : Memory → Memory
  | [] => Memory.consCell k v []
  | (a, w) :: rest =>
    if k < a then Memory.consCell k v ((a, w) :: rest)
    else if k = a then Memory.consCell k v (rest.dropWhile fun c => decide (c.1 ≤ k))
    else (a, w) :: Memory.writeKey k v rest

/-- `MemRead(addr, 1)` of the plain memory of `20_memory.md` R52; total, no error (R51). -/
def Memory.read (m : Memory) (addr : Word) : Byte := Memory.readKey addr.toNat m

/-- `MemWrite(addr, 1, v)`; total, no error (`20_memory.md` R51). -/
def Memory.write (m : Memory) (addr : Word) (v : Byte) : Memory :=
  Memory.writeKey addr.toNat v m

/-- The memory whose byte at every address `a < n` is `f a`, and which lists nothing above: how a
launch input `MEM_INIT` (`70_reset_and_hazards.md` R254) becomes plain data. -/
def Memory.ofFn (f : Nat → Byte) (n : Nat) : Memory :=
  match n with
  | 0 => []
  | k + 1 => Memory.writeKey k (f k) (Memory.ofFn f k)

/-- One byte read by the core. -/
def State.read (s : State) (addr : Word) : Byte := s.mem.read addr

/-- One byte written by the core. -/
def State.write (s : State) (addr : Word) (v : Byte) : State :=
  { s with mem := s.mem.write addr v }

/-! ## Registers -/

/-- `A <- v`. -/
def State.setA (s : State) (v : Byte) : State := { s with a := v }

/-- `X <- v`. -/
def State.setX (s : State) (v : Byte) : State := { s with x := v }

/-- `Y <- v`. -/
def State.setY (s : State) (v : Byte) : State := { s with y := v }

/-- `SP <- v`. -/
def State.setSp (s : State) (v : Byte) : State := { s with sp := v }

/-- `PC <- v`. -/
def State.setPc (s : State) (v : Word) : State := { s with pc := v }

/-- `P <- v`, all eight bits. -/
def State.setP (s : State) (v : Byte) : State := { s with p := v }

/-- `halted <- v`. -/
def State.setHalted (s : State) (v : Bool) : State := { s with halted := v }

/-! ## Ends of an instruction -/

/-- The commit phase of an instruction that is no branch: `PC <- (PC + len) mod 65536`
(`10_state.md` R28, `44_step_engine_and_halt.md` R206). -/
def commit (len : Nat) (s : State) : Result := .next (s.setPc (s.pc + BitVec.ofNat 16 len))

/-- Taking an exception: the step ends, the error goes to the host, and nothing is saved,
changed or vectored (`60_exceptions.md` R234, R237), so the outcome carries no state. There is no
return from it: the host resumes by its own moves (R239, `HostActions.lean`). -/
def raise (kind : Fault) (_ : State) : Result := .fault kind

end Sys2Proof.Machine
end

