-- ==== Sys2Proof/Machine/Flags.lean ====
section
/-! DEFINITION. The status register (`10_state.md` R30 to R33) and every flag computation: the
add of ADC and SBC, the comparison of CMP, the shifts and rotates. -/

namespace Sys2Proof.Machine

/-- The eight flags of `P` (`10_state.md` R30). -/
inductive Flag where
  | c | z | i | d | b | u | v | n
  deriving DecidableEq, Repr

/-- The bit of `P` a flag is. -/
def Flag.index : Flag → Nat
  | .c => 0
  | .z => 1
  | .i => 2
  | .d => 3
  | .b => 4
  | .u => 5
  | .v => 6
  | .n => 7

/-- The byte with only the flag's bit set. -/
def Flag.mask (f : Flag) : Byte := 1#8 <<< f.index

/-- `get(flag)` of the status register (`10_state.md` R31). -/
def getFlag (p : Byte) (f : Flag) : Bool := p.getLsbD f.index

/-- `set(flag, bool)` of the status register: that bit and no other (`10_state.md` R31). -/
def putFlag (p : Byte) (f : Flag) (on : Bool) : Byte :=
  if on then p ||| f.mask else p &&& ~~~f.mask

/-- `P.f`. -/
def State.flag (s : State) (f : Flag) : Bool := getFlag s.p f

/-- `P.f <- on`. -/
def State.setFlag (s : State) (f : Flag) (on : Bool) : State := s.setP (putFlag s.p f on)

/-- `SetZN(v)`: `P.Z <- (v = 0)`, `P.N <- v[7]` (`10_state.md` R33). -/
def State.setZN (s : State) (v : Byte) : State :=
  (s.setFlag .z (decide (v = 0))).setFlag .n v.msb

/-- The result of an add: the byte, the carry and the signed overflow. -/
structure SumOut where
  value : Byte
  carry : Bool
  overflow : Bool
  deriving DecidableEq, Repr

/-- The add of ADC (`41_group1_alu_load_store.md` R124): a 9-bit sum, the carry its bit 8, the
overflow from the sign bits of the two bytes and of the result byte. -/
def addWithCarry (a m : Byte) (cin : Bool) : SumOut :=
  let sum := a.toNat + m.toNat + cin.toNat
  let r := BitVec.ofNat 8 sum
  { value := r
    carry := decide (sum > 255)
    overflow := a.msb == m.msb && r.msb != a.msb }

/-- The subtract of SBC: the add of the one's complement (`41_group1_alu_load_store.md` R128). -/
def subWithCarry (a m : Byte) (cin : Bool) : SumOut := addWithCarry a (m ^^^ 0xFF) cin

/-- The difference CMP looks at and does not store (`41_group1_alu_load_store.md` R127). -/
def difference (a m : Byte) : Byte := BitVec.ofNat 8 (a.toNat + 256 - m.toNat)

/-- The carry of CMP: no borrow, an unsigned comparison (`41_group1_alu_load_store.md` R127). -/
def noBorrow (a m : Byte) : Bool := decide (a.toNat ≥ m.toNat)

/-- The result of a shift or rotate: the byte and the bit shifted out. -/
structure ShiftOut where
  value : Byte
  carry : Bool
  deriving DecidableEq, Repr

/-- ASL: bit 7 goes out, bit 0 becomes 0 (`42_group2_shift_incdec_transfer.md` R142). -/
def shiftLeft (v : Byte) (_ : Bool) : ShiftOut := { value := v <<< 1, carry := v.getLsbD 7 }

/-- ROL: bit 7 goes out, bit 0 becomes the old carry
(`42_group2_shift_incdec_transfer.md` R143). -/
def rotateLeft (v : Byte) (cin : Bool) : ShiftOut :=
  { value := v <<< 1 ||| BitVec.ofNat 8 cin.toNat, carry := v.getLsbD 7 }

/-- LSR: bit 0 goes out, bit 7 becomes 0 (`42_group2_shift_incdec_transfer.md` R144). -/
def shiftRight (v : Byte) (_ : Bool) : ShiftOut := { value := v >>> 1, carry := v.getLsbD 0 }

/-- ROR: bit 0 goes out, bit 7 becomes the old carry
(`42_group2_shift_incdec_transfer.md` R145). -/
def rotateRight (v : Byte) (cin : Bool) : ShiftOut :=
  { value := v >>> 1 ||| BitVec.ofNat 8 cin.toNat <<< 7, carry := v.getLsbD 0 }

/-- DEC: wrapping subtract 1 (`42_group2_shift_incdec_transfer.md` R146). -/
def decrement (v : Byte) : Byte := v - 1

/-- INC: wrapping add 1 (`42_group2_shift_incdec_transfer.md` R147). -/
def increment (v : Byte) : Byte := v + 1

end Sys2Proof.Machine
end

