-- ==== Sys2Proof/Machine/Operands.lean ====
section
/-! DEFINITION. The address resolver (`40_address_resolver.md`), the operand read, and the target
of a branch. -/

namespace Sys2Proof.Machine

/-- What the resolver returns (`40_address_resolver.md` R100). -/
structure Resolved where
  /-- `ea`, the effective address. -/
  ea : Word
  /-- `extra`, 1 on a page cross. -/
  extra : Nat
  /-- `len`, bytes consumed including the opcode byte. -/
  len : Nat
  deriving DecidableEq, Repr

/-- The 16-bit value at a zero-page pointer; the fetch of its high byte wraps inside the zero
page (`40_address_resolver.md` R103, R107). -/
def zpPointer (s : State) (ptr : Byte) : Word :=
  wordOf (s.read (zext (ptr + 1))) (s.read (zext ptr))

/-- A base address plus an index: the sum wraps only at 65536, and `extra` is 1 when its high byte
differs from the base's (`40_address_resolver.md` R107, R109, R110, R111). -/
def indexed (base : Word) (index : Byte) (len : Nat) : Resolved :=
  let ea := base + zext index
  { ea := ea, extra := if hiByte ea ≠ hiByte base then 1 else 0, len := len }

/-- `Resolve(sel)` (`40_address_resolver.md` R100 to R110). The operand bytes at `PC+1` and
`PC+2` (R101) come with the mode; `fetchInstr` of `Fetch.lean` has read them (log 6). -/
def resolve (m : Mode) (s : State) : Resolved :=
  match m with
  | .indX lo => { ea := zpPointer s (lo + s.x), extra := 0, len := 2 }
  | .zp lo => { ea := zext lo, extra := 0, len := 2 }
  | .imm _ => { ea := s.pc + 1, extra := 0, len := 2 }
  | .abs addr => { ea := addr, extra := 0, len := 3 }
  | .indY lo => indexed (zpPointer s lo) s.y 2
  | .zpX lo => { ea := zext (lo + s.x), extra := 0, len := 2 }
  | .absY base => indexed base s.y 3
  | .absX base => indexed base s.x 3

/-- The operand byte `m <- MemRead(ea, 1)`. In immediate mode it is the operand byte itself, which
is the byte at `ea = PC+1` (`40_address_resolver.md` R105; log 6). -/
def operand (m : Mode) (s : State) : Byte :=
  match m with
  | .imm v => v
  | m => s.read (resolve m s).ea

/-- The address of the instruction after a branch. -/
def afterBranch (s : State) : Word := s.pc + 2

/-- The target of a taken branch: the offset is added to the address of the next instruction, or
its absolute value subtracted when it is negative (`43_group0_branch_flag_bit.md` R171). -/
def branchTarget (s : State) (off : Byte) : Word :=
  if off.getLsbD 7 = false then afterBranch s + zext off
  else afterBranch s - BitVec.ofNat 16 (256 - off.toNat)

end Sys2Proof.Machine
end

