-- ==== Sys2Proof/Machine/Group0.lean ====
section
/-! DEFINITION. Branches, flag operations and BIT (`43_group0_branch_flag_bit.md`). -/

namespace Sys2Proof.Machine

/-- A branch writes `PC` and nothing else: the target when the condition holds, the next
instruction when it does not (R170, R171). -/
def branch (cond : Bool) (off : Byte) (s : State) : Result :=
  .next (s.setPc (if cond then branchTarget s off else afterBranch s))

/-- BPL (R172): `P.N = 0`. -/
def execBpl (off : Byte) (s : State) : Result := branch (!s.flag .n) off s

/-- BMI (R173): `P.N = 1`. -/
def execBmi (off : Byte) (s : State) : Result := branch (s.flag .n) off s

/-- BVC (R174): `P.V = 0`. -/
def execBvc (off : Byte) (s : State) : Result := branch (!s.flag .v) off s

/-- BVS (R175): `P.V = 1`. -/
def execBvs (off : Byte) (s : State) : Result := branch (s.flag .v) off s

/-- BCC (R176): `P.C = 0`. -/
def execBcc (off : Byte) (s : State) : Result := branch (!s.flag .c) off s

/-- BCS (R177): `P.C = 1`. -/
def execBcs (off : Byte) (s : State) : Result := branch (s.flag .c) off s

/-- BNE (R178): `P.Z = 0`. -/
def execBne (off : Byte) (s : State) : Result := branch (!s.flag .z) off s

/-- BEQ (R179): `P.Z = 1`. -/
def execBeq (off : Byte) (s : State) : Result := branch (s.flag .z) off s

/-- A flag operation: one bit of `P` gets a constant (R181). -/
def flagOp (f : Flag) (on : Bool) (s : State) : Result := commit 1 (s.setFlag f on)

/-- CLC (R182). -/
def execClc (s : State) : Result := flagOp .c false s

/-- SEC (R183). -/
def execSec (s : State) : Result := flagOp .c true s

/-- CLI (R184). -/
def execCli (s : State) : Result := flagOp .i false s

/-- SEI (R185). -/
def execSei (s : State) : Result := flagOp .i true s

/-- CLV (R186). -/
def execClv (s : State) : Result := flagOp .v false s

/-- CLD (R187). -/
def execCld (s : State) : Result := flagOp .d false s

/-- SED (R188). -/
def execSed (s : State) : Result := flagOp .d true s

/-- BIT (R189): `N` and `V` are bits 7 and 6 of the operand, `Z` is of `A & operand`; it has the
modes `zp` and `abs`. -/
def execBit (m : Mode) (s : State) : Result :=
  let v := operand m s
  if m.bitTestable then
    commit (resolve m s).len
      (((s.setFlag .n (v.getLsbD 7)).setFlag .v (v.getLsbD 6)).setFlag .z
        (decide (s.a &&& v = 0)))
  else raise .illegalAddressingMode s

end Sys2Proof.Machine
end

