-- ==== Sys2Proof/Machine/Group1.lean ====
section
/-! DEFINITION. Group 1: ORA AND EOR ADC STA LDA CMP SBC (`41_group1_alu_load_store.md`). The
reading operations take all eight modes; the frame is that of R120. -/

namespace Sys2Proof.Machine

/-- `A <- r; SetZN(r)`, then the commit of the mode's length. -/
def loadA (m : Mode) (r : Byte) (s : State) : Result :=
  commit (resolve m s).len ((s.setA r).setZN r)

/-- The end of ADC and SBC: `C`, `V`, `A`, then `SetZN`. -/
def loadSum (m : Mode) (r : SumOut) (s : State) : Result :=
  commit (resolve m s).len
    ((((s.setFlag .c r.carry).setFlag .v r.overflow).setA r.value).setZN r.value)

/-- ORA (R121). -/
def execOra (m : Mode) (s : State) : Result := loadA m (s.a ||| operand m s) s

/-- AND (R122). -/
def execAnd (m : Mode) (s : State) : Result := loadA m (s.a &&& operand m s) s

/-- EOR (R123). -/
def execEor (m : Mode) (s : State) : Result := loadA m (s.a ^^^ operand m s) s

/-- ADC (R124); binary whatever `P.D` holds. -/
def execAdc (m : Mode) (s : State) : Result :=
  loadSum m (addWithCarry s.a (operand m s) (s.flag .c)) s

/-- STA (R125): one write, no flag; it has no immediate form. -/
def execSta (m : Mode) (s : State) : Result :=
  if m.storable then commit (resolve m s).len (s.write (resolve m s).ea s.a)
  else raise .illegalAddressingMode s

/-- LDA (R126). -/
def execLda (m : Mode) (s : State) : Result := loadA m (operand m s) s

/-- CMP (R127): `C`, `Z`, `N` from the difference, which is not stored. -/
def execCmp (m : Mode) (s : State) : Result :=
  let v := operand m s
  commit (resolve m s).len ((s.setFlag .c (noBorrow s.a v)).setZN (difference s.a v))

/-- SBC (R128); binary whatever `P.D` holds. -/
def execSbc (m : Mode) (s : State) : Result :=
  loadSum m (subWithCarry s.a (operand m s) (s.flag .c)) s

end Sys2Proof.Machine
end

