-- ==== Sys2Proof/Machine/Group2.lean ====
section
/-! DEFINITION. Shifts, rotates, decrement, increment and the six register transfers
(`42_group2_shift_incdec_transfer.md`). -/

namespace Sys2Proof.Machine

/-- A read-modify-write of memory: `update` gives the flags of the result and `value` the byte
written back to the address it was read from (R141). It has four modes. -/
def modify (m : Mode) (value : Byte) (update : State → State) (s : State) : Result :=
  if m.modifiable then commit (resolve m s).len ((update s).write (resolve m s).ea value)
  else raise .illegalAddressingMode s

/-- The flags of a shift or rotate: `C` the bit shifted out, then `SetZN` of the result. -/
def shiftFlags (r : ShiftOut) (s : State) : State := (s.setFlag .c r.carry).setZN r.value

/-- The two forms of a shift or rotate (R140, R141). -/
def shift (op : Byte → Bool → ShiftOut) (o : ShiftOperand) (s : State) : Result :=
  match o with
  | .acc =>
    let r := op s.a (s.flag .c)
    commit 1 ((shiftFlags r s).setA r.value)
  | .mem m =>
    let r := op (operand m s) (s.flag .c)
    modify m r.value (shiftFlags r) s

/-- ASL (R142). -/
def execAsl (o : ShiftOperand) (s : State) : Result := shift shiftLeft o s

/-- ROL (R143). -/
def execRol (o : ShiftOperand) (s : State) : Result := shift rotateLeft o s

/-- LSR (R144); `N` is always cleared, bit 7 of the result being 0. -/
def execLsr (o : ShiftOperand) (s : State) : Result := shift shiftRight o s

/-- ROR (R145). -/
def execRor (o : ShiftOperand) (s : State) : Result := shift rotateRight o s

/-- The memory form of DEC and INC: `Z` and `N` of the result, no carry. -/
def modifyZN (m : Mode) (r : Byte) (s : State) : Result := modify m r (fun s => s.setZN r) s

/-- DEC (R146). -/
def execDec (m : Mode) (s : State) : Result := modifyZN m (decrement (operand m s)) s

/-- INC (R147). -/
def execInc (m : Mode) (s : State) : Result := modifyZN m (increment (operand m s)) s

/-- TAX (R151). -/
def execTax (s : State) : Result := commit 1 ((s.setX s.a).setZN s.a)

/-- TAY (R152). -/
def execTay (s : State) : Result := commit 1 ((s.setY s.a).setZN s.a)

/-- TXA (R153). -/
def execTxa (s : State) : Result := commit 1 ((s.setA s.x).setZN s.x)

/-- TYA (R154). -/
def execTya (s : State) : Result := commit 1 ((s.setA s.y).setZN s.y)

/-- TSX (R155), the only reader of `SP`. -/
def execTsx (s : State) : Result := commit 1 ((s.setX s.sp).setZN s.sp)

/-- TXS (R156), the only writer of `SP`; it writes no flag. -/
def execTxs (s : State) : Result := commit 1 (s.setSp s.x)

end Sys2Proof.Machine
end

