-- ==== Sys2Proof/Machine/Halt.lean ====
section
/-! DEFINITION. HLT (`44_step_engine_and_halt.md` R212) and the two classes of illegal bytes
(`60_exceptions.md` R231, R232). -/

namespace Sys2Proof.Machine

/-- HLT: `halted <- 1`, `PC` past its byte, nothing else. -/
def execHlt (s : State) : Result := commit 1 (s.setHalted true)

/-- A byte with no assigned operation: `IllegalOpcode`, whatever the byte. -/
def execIllegalOpcode (_ : Byte) (s : State) : Result := raise .illegalOpcode s

/-- An operation with a mode it does not have: `IllegalAddressingMode`, whatever the byte. -/
def execIllegalMode (_ : Byte) (s : State) : Result := raise .illegalAddressingMode s

end Sys2Proof.Machine
end

