-- ==== Sys2Proof/Machine/Dispatch.lean ====
section
/-! DEFINITION. The handler of each instruction (`44_step_engine_and_halt.md` R205). -/

namespace Sys2Proof.Machine

def exec (i : Instr) (s : State) : Host.Outcome State Fault Refusal :=
  match i with
  | .ora m => Sys2Proof.Machine.execOra m s
  | .and m => Sys2Proof.Machine.execAnd m s
  | .eor m => Sys2Proof.Machine.execEor m s
  | .adc m => Sys2Proof.Machine.execAdc m s
  | .sta m => Sys2Proof.Machine.execSta m s
  | .lda m => Sys2Proof.Machine.execLda m s
  | .cmp m => Sys2Proof.Machine.execCmp m s
  | .sbc m => Sys2Proof.Machine.execSbc m s
  | .asl o => Sys2Proof.Machine.execAsl o s
  | .rol o => Sys2Proof.Machine.execRol o s
  | .lsr o => Sys2Proof.Machine.execLsr o s
  | .ror o => Sys2Proof.Machine.execRor o s
  | .dec m => Sys2Proof.Machine.execDec m s
  | .inc m => Sys2Proof.Machine.execInc m s
  | .tax => Sys2Proof.Machine.execTax s
  | .tay => Sys2Proof.Machine.execTay s
  | .txa => Sys2Proof.Machine.execTxa s
  | .tya => Sys2Proof.Machine.execTya s
  | .tsx => Sys2Proof.Machine.execTsx s
  | .txs => Sys2Proof.Machine.execTxs s
  | .bpl off => Sys2Proof.Machine.execBpl off s
  | .bmi off => Sys2Proof.Machine.execBmi off s
  | .bvc off => Sys2Proof.Machine.execBvc off s
  | .bvs off => Sys2Proof.Machine.execBvs off s
  | .bcc off => Sys2Proof.Machine.execBcc off s
  | .bcs off => Sys2Proof.Machine.execBcs off s
  | .bne off => Sys2Proof.Machine.execBne off s
  | .beq off => Sys2Proof.Machine.execBeq off s
  | .clc => Sys2Proof.Machine.execClc s
  | .sec => Sys2Proof.Machine.execSec s
  | .cli => Sys2Proof.Machine.execCli s
  | .sei => Sys2Proof.Machine.execSei s
  | .clv => Sys2Proof.Machine.execClv s
  | .cld => Sys2Proof.Machine.execCld s
  | .sed => Sys2Proof.Machine.execSed s
  | .bit m => Sys2Proof.Machine.execBit m s
  | .hlt => Sys2Proof.Machine.execHlt s
  | .illegalOpcode b => Sys2Proof.Machine.execIllegalOpcode b s
  | .illegalMode b => Sys2Proof.Machine.execIllegalMode b s

end Sys2Proof.Machine
end

