-- ==== Sys2Proof/Machine/Fetch.lean ====
section
/-! DEFINITION. Fetching an instruction's bytes, and placing them where the next step fetches. -/

namespace Sys2Proof.Machine

/-- The three bytes from `PC` on, addresses mod 65536: the opcode (`44_step_engine_and_halt.md`
R202) and the two operand bytes (`40_address_resolver.md` R101). -/
def fetchBytes (s : State) : List Byte := [s.read s.pc, s.read (s.pc + 1), s.read (s.pc + 2)]

/-- The instruction at `PC`: fetch, decode and classify (`44_step_engine_and_halt.md` R202,
R203). Nothing is kept from an earlier step (`20_memory.md` R63). -/
def fetchInstr (halt : Option Byte) (s : State) : Instr :=
  decodeBytes halt (s.read s.pc) (s.read (s.pc + 1)) (s.read (s.pc + 2))

/-- The state with three bytes placed from `PC` on and `halted` clear: what the host does to have
the next step run them (`70_reset_and_hazards.md` R253; log 7). -/
def placeBytes (s : State) (op lo hi : Byte) : State :=
  (((s.write s.pc op).write (s.pc + 1) lo).write (s.pc + 2) hi).setHalted false

end Sys2Proof.Machine
end

