-- ==== Sys2Proof/Machine/Step.lean ====
section
/-! DEFINITION. `Step()` (`44_step_engine_and_halt.md` R200): the halted check, then the handler
of the instruction at `PC`. The handlers commit `PC` themselves. -/

namespace Sys2Proof.Machine

/-- One step of the core with the given parameters. The halted check comes first and reads
nothing (R201); the two decode errors are the handlers of the illegal bytes (R203). -/
def stepWith (params : Params) (s : State) : Host.Outcome State Fault Refusal :=
  if s.halted then raise .haltedViolation s
  else exec (fetchInstr params.haltOpcode s) s

/-- One step with the parameter values the spec takes. -/
def step (s : State) : Host.Outcome State Fault Refusal := stepWith Config.params s

/-- `s` with an instruction of `nbits` bits placed where the next step fetches. -/
def State.withFetchWord (s : State) (nbits w : Nat) : State :=
  placeBytes s (byteOfWord (w % 2 ^ nbits) 0) (byteOfWord (w % 2 ^ nbits) 1)
    (byteOfWord (w % 2 ^ nbits) 2)

end Sys2Proof.Machine
end

