-- ==== Sys2Proof/Machine/Accesses.lean ====
section
/-! DEFINITION. The memory accesses of a step, in order (`44_step_engine_and_halt.md` R210). The
order of the reads is the spec's choice D15 (log 11); with plain memory only the write is
observable (`20_memory.md` R65). -/

namespace Sys2Proof.Machine

/-- One access at a port. -/
inductive Access where
  /-- `R(addr)`. -/
  | read (addr : Word)
  /-- `W(addr)` carrying `v`. -/
  | write (addr : Word) (v : Byte)
  deriving DecidableEq, Repr

/-- The two reads of a zero-page pointer, low byte first (`40_address_resolver.md` R113). -/
def pointerReads (ptr : Byte) : List Access := [.read (zext ptr), .read (zext (ptr + 1))]

/-- The reads of the resolver: both bytes after the opcode whatever the mode, then the pointer
bytes of the two indirect modes (`40_address_resolver.md` R101, R113). -/
def resolverReads (m : Mode) (s : State) : List Access :=
  [.read (s.pc + 1), .read (s.pc + 2)] ++
    match m with
    | .indX lo => pointerReads (lo + s.x)
    | .indY lo => pointerReads lo
    | _ => []

/-- The accesses of an instruction that reads its operand. -/
def readAccesses (m : Mode) (s : State) : List Access :=
  resolverReads m s ++ [.read (resolve m s).ea]

/-- The accesses of STA: the operand is not read first (`41_group1_alu_load_store.md` R125). -/
def storeAccesses (m : Mode) (s : State) : List Access :=
  resolverReads m s ++ [.write (resolve m s).ea s.a]

/-- The accesses of a read-modify-write: one read, then one write of the result, no dummy write
(`42_group2_shift_incdec_transfer.md` R141). -/
def modifyAccesses (m : Mode) (r : Byte) (s : State) : List Access :=
  resolverReads m s ++ [.read (resolve m s).ea, .write (resolve m s).ea r]

/-- The accesses of a shift or rotate; the accumulator form makes none. -/
def shiftAccesses (op : Byte → Bool → ShiftOut) (o : ShiftOperand) (s : State) : List Access :=
  match o with
  | .acc => []
  | .mem m => modifyAccesses m (op (operand m s) (s.flag .c)).value s

/-- The accesses of an instruction after the read of its opcode. -/
def instrAccesses (i : Instr) (s : State) : List Access :=
  match i with
  | .ora m | .and m | .eor m | .adc m | .lda m | .cmp m | .sbc m | .bit m => readAccesses m s
  | .sta m => storeAccesses m s
  | .asl o => shiftAccesses shiftLeft o s
  | .rol o => shiftAccesses rotateLeft o s
  | .lsr o => shiftAccesses shiftRight o s
  | .ror o => shiftAccesses rotateRight o s
  | .dec m => modifyAccesses m (decrement (operand m s)) s
  | .inc m => modifyAccesses m (increment (operand m s)) s
  | .bpl _ | .bmi _ | .bvc _ | .bvs _ | .bcc _ | .bcs _ | .bne _ | .beq _ => [.read (s.pc + 1)]
  | .tax | .tay | .txa | .tya | .tsx | .txs => []
  | .clc | .sec | .cli | .sei | .clv | .cld | .sed | .hlt => []
  | .illegalOpcode _ | .illegalMode _ => []

/-- The accesses of a step: none when halted, else the opcode byte and then the instruction's. -/
def stepAccesses (params : Params) (s : State) : List Access :=
  if s.halted then []
  else .read s.pc :: instrAccesses (fetchInstr params.haltOpcode s) s

/-- What a list of accesses leaves in memory: its writes, in order. -/
def replayWrites (m : Memory) : List Access → Memory
  | [] => m
  | .read _ :: rest => replayWrites m rest
  | .write addr v :: rest => replayWrites (m.write addr v) rest

end Sys2Proof.Machine
end

