-- ==== Sys2Proof/Machine/HostActions.lean ====
section
/-! DEFINITION. What the host may do between two steps (`70_reset_and_hazards.md` R250, R255,
R256; `60_exceptions.md` R239). It is no part of `step` (log 13). -/

namespace Sys2Proof.Machine

/-- One move of the host. -/
inductive HostAction where
  | writeA (v : Byte)
  | writeX (v : Byte)
  | writeY (v : Byte)
  | writeSp (v : Byte)
  /-- Also how a host starts a program elsewhere than 0x0000, and how it skips an illegal byte. -/
  | writePc (v : Word)
  | writeP (v : Byte)
  /-- Clearing `halted` resumes a halted core at its `PC` (R255). -/
  | writeHalted (v : Bool)
  /-- Placing a byte of a program or of its data. -/
  | writeByte (addr : Word) (v : Byte)
  /-- Reset: the CPU state only, never memory (R250). -/
  | reset
  deriving DecidableEq, Repr

/-- The state after a move of the host. -/
def hostAct (params : Params) (act : HostAction) (s : State) : State :=
  match act with
  | .writeA v => s.setA v
  | .writeX v => s.setX v
  | .writeY v => s.setY v
  | .writeSp v => s.setSp v
  | .writePc v => s.setPc v
  | .writeP v => s.setP v
  | .writeHalted v => s.setHalted v
  | .writeByte addr v => s.write addr v
  | .reset => State.launch params s.mem

end Sys2Proof.Machine
end

