-- ==== Sys2Proof/Machine/Timing.lean ====
section
/-! DEFINITION. The cycle count each instruction returns (`70_reset_and_hazards.md` R262, R263).
It is an output and nothing reads it (R261). The counts that the source's own table does not give
are the spec's choices D13 and D14 (log 10). -/

namespace Sys2Proof.Machine

/-- `base(sel)`, the base cycles of a mode (`40_address_resolver.md` R102). -/
def baseCycles : Mode → Nat
  | .indX _ => 6
  | .zp _ => 3
  | .imm _ => 2
  | .abs _ => 4
  | .indY _ => 5
  | .zpX _ => 4
  | .absY _ => 4
  | .absX _ => 4

/-- An instruction that reads its operand pays the page cross
(`41_group1_alu_load_store.md` R129). -/
def readCycles (m : Mode) (s : State) : Nat := baseCycles m + (resolve m s).extra

/-- A store pays one cycle in the three modes that could cross, always
(`41_group1_alu_load_store.md` R129). -/
def storeCycles (m : Mode) : Nat :=
  match m with
  | .indY _ | .absY _ | .absX _ => baseCycles m + 1
  | _ => baseCycles m

/-- A read-modify-write pays two more than the mode, and one more for `abs,X`, always
(`42_group2_shift_incdec_transfer.md` R149). -/
def modifyCycles (m : Mode) : Nat :=
  match m with
  | .absX _ => baseCycles m + 3
  | _ => baseCycles m + 2

/-- The accumulator form takes 2 (`42_group2_shift_incdec_transfer.md` R149). -/
def shiftCycles : ShiftOperand → Nat
  | .acc => 2
  | .mem m => modifyCycles m

/-- A branch: 2 when not taken, 3 when taken, 4 when the target is on another page than the next
instruction (`43_group0_branch_flag_bit.md` R180). -/
def branchCycles (cond : Bool) (off : Byte) (s : State) : Nat :=
  if cond then (if hiByte (branchTarget s off) = hiByte (afterBranch s) then 3 else 4) else 2

/-- The cycle count of an instruction executed in `s` (`70_reset_and_hazards.md` R262). An
instruction that ends in an error returns no count; the 0 given for the illegal bytes reaches no
result. -/
def instrCycles (haltCycles : Nat) (i : Instr) (s : State) : Nat :=
  match i with
  | .ora m | .and m | .eor m | .adc m | .lda m | .cmp m | .sbc m | .bit m => readCycles m s
  | .sta m => storeCycles m
  | .asl o | .rol o | .lsr o | .ror o => shiftCycles o
  | .dec m | .inc m => modifyCycles m
  | .tax | .tay | .txa | .tya | .tsx | .txs => 2
  | .clc | .sec | .cli | .sei | .clv | .cld | .sed => 2
  | .bpl off => branchCycles (!s.flag .n) off s
  | .bmi off => branchCycles (s.flag .n) off s
  | .bvc off => branchCycles (!s.flag .v) off s
  | .bvs off => branchCycles (s.flag .v) off s
  | .bcc off => branchCycles (!s.flag .c) off s
  | .bcs off => branchCycles (s.flag .c) off s
  | .bne off => branchCycles (!s.flag .z) off s
  | .beq off => branchCycles (s.flag .z) off s
  | .hlt => haltCycles
  | .illegalOpcode _ | .illegalMode _ => 0

end Sys2Proof.Machine
end

