-- ==== Sys2Proof/Machine/Call.lean ====
section
/-! DEFINITION. The step as the host calls it: the state it leaves and the result it returns
(`44_step_engine_and_halt.md` R207). -/

namespace Sys2Proof.Machine

/-- `Result<CyclesConsumed, DecodeError>` (`44_step_engine_and_halt.md` R207). -/
inductive StepResult where
  /-- `Ok(cycles)`. -/
  | ok (cycles : Nat)
  /-- `Err(kind)`. -/
  | err (kind : Fault)
  /-- The model has no meaning for the instruction; no step answers this. -/
  | noMeaning (reason : Refusal)
  deriving DecidableEq, Repr

/-- One call of `Step`: the state after it and its result. An error leaves every item of state and
every byte of memory as it was and returns no count (`60_exceptions.md` R234). -/
def call (params : Params) (s : State) : State × StepResult :=
  match stepWith params s with
  | .next t => (t, .ok (instrCycles params.haltCycles (fetchInstr params.haltOpcode s) s))
  | .fault kind => (s, .err kind)
  | .refused reason => (s, .noMeaning reason)

end Sys2Proof.Machine
end

