-- ==== Sys2Proof/Safety.lean ====
section
/-! DEFINITION. What a safe step and a run are, in the terms claims use
(`44_step_engine_and_halt.md` R211). -/

namespace Sys2Proof.Machine

/-- The step completes: it returns `Ok`. -/
def completes (params : Params) (s : State) : Bool :=
  match stepWith params s with
  | .next _ => true
  | .fault _ => false
  | .refused _ => false

/-- How a run ends (`44_step_engine_and_halt.md` R211). -/
inductive RunEnd where
  /-- Normally: the last step set `halted`; the state after it. -/
  | halted (s : State)
  /-- In error: a step returned `Err`; the state it was made in, which it left unchanged. -/
  | error (kind : Fault) (s : State)
  /-- The host's instruction budget ran out first; the state reached. -/
  | budget (s : State)
  /-- A step had no meaning in the model; never reached. -/
  | noMeaning (reason : Refusal) (s : State)
  deriving DecidableEq, Repr

/-- A run of at most `n` steps from `s`, with no move of the host between them: the steps made
until the first that sets `halted` or returns `Err`. -/
def runFor (params : Params) : Nat → State → RunEnd
  | 0, s => .budget s
  | n + 1, s =>
    match stepWith params s with
    | .next t => if t.halted then .halted t else runFor params n t
    | .fault kind => .error kind s
    | .refused reason => .noMeaning reason s

end Sys2Proof.Machine
end

