-- ==== Sys2Proof/Certificates/Slice0/Obligations.lean ====
section
/-! DEFINITION. The statements for the provers. The tables under `Sys2Proof.Spec` are copied from
the spec and not computed from the model. Where a statement rests on a choice the spec marks as
its own, its docstring names the decision and the log entry. -/

namespace Sys2Proof.Spec

open Sys2Proof.Machine

/-- The flags not in `written` are the same in `q` as in `p`. -/
def KeepsFlags (p q : Byte) (written : List Flag) : Prop :=
  ∀ f, f ∉ written → getFlag q f = getFlag p f

/-- `Z` and `N` of `q` are those of the result `r` (`10_state.md` R33). -/
def ShowsZN (q r : Byte) : Prop :=
  getFlag q .z = decide (r.toNat = 0) ∧ getFlag q .n = decide (128 ≤ r.toNat)

/-- The address of the instruction after one with operand mode `m`. -/
def pcAfter (m : Mode) (s : State) : Word := BitVec.ofNat 16 (s.pc.toNat + m.length)

/-- `m <- MemRead(ea, 1)`: the operand of mode `m` is the byte at its effective address; in
immediate mode it is the operand byte of the instruction, which stands at that address. -/
def ReadsOperand (m : Mode) (s : State) : Prop :=
  match m with
  | .imm v => operand m s = v
  | m => operand m s = s.read (resolve m s).ea

/-- The carry as a number. -/
def carryIn (s : State) : Nat := if s.flag .c then 1 else 0

/-- An instruction left `t`: memory holds `r` at `ea` and is otherwise as in `s`, and everything
but memory, `PC` and `P` is as in `s`. -/
def StoresOnly (s t : State) (ea : Word) (r : Byte) (pc : Word) : Prop :=
  t.read ea = r ∧ (∀ w, w ≠ ea → t.read w = s.read w) ∧
    t.a = s.a ∧ t.x = s.x ∧ t.y = s.y ∧ t.sp = s.sp ∧ t.halted = s.halted ∧ t.pc = pc

/-- The first byte of the encoding of `i` is the one in column `sel` of a row of the opcode map
(`30_encoding.md` R75, R76, R79). A row of group 1 or 2 is written with all its eight columns; a
column whose mode the operation lacks is an illegal byte and is not looked up. -/
def HasOpcode (i : Instr) (row : List Byte) (sel : Nat) : Prop :=
  (encode i).head? = row[sel]?

/-- The flags an instruction writes (`10_state.md` R34, column "written by"). -/
def flagsWritten : Instr → List Flag
  | .adc _ | .sbc _ => [.c, .z, .v, .n]
  | .cmp _ | .asl _ | .lsr _ | .rol _ | .ror _ => [.c, .z, .n]
  | .ora _ | .and _ | .eor _ | .lda _ | .inc _ | .dec _ => [.z, .n]
  | .tax | .tay | .txa | .tya | .tsx => [.z, .n]
  | .bit _ => [.z, .v, .n]
  | .clc | .sec => [.c]
  | .cli | .sei => [.i]
  | .cld | .sed => [.d]
  | .clv => [.v]
  | .sta _ | .txs | .hlt => []
  | .bpl _ | .bmi _ | .bvc _ | .bvs _ | .bcc _ | .bcs _ | .bne _ | .beq _ => []
  | .illegalOpcode _ | .illegalMode _ => []

/-- The instructions that write `A` (`10_state.md` R21). -/
def writesA : Instr → Bool
  | .ora _ | .and _ | .eor _ | .adc _ | .sbc _ | .lda _ | .txa | .tya => true
  | .asl .acc | .rol .acc | .lsr .acc | .ror .acc => true
  | _ => false

/-- The address an instruction stores to: STA and the memory forms of the six read-modify-write
operations store to the effective address of their mode, nothing else writes memory
(`20_memory.md` R64). -/
def storeAddress (i : Instr) (s : State) : Option Word :=
  match i with
  | .sta m | .dec m | .inc m => some (resolve m s).ea
  | .asl (.mem m) | .rol (.mem m) | .lsr (.mem m) | .ror (.mem m) => some (resolve m s).ea
  | _ => none

/-- The byte an instruction stores at its store address: `A`, or the result of the operation on
the byte at the effective address (`41_group1_alu_load_store.md` R125,
`42_group2_shift_incdec_transfer.md` R142 to R147). -/
def storedByte (i : Instr) (s : State) : Option Byte :=
  let v (m : Mode) : Nat := (s.read (resolve m s).ea).toNat
  match i with
  | .sta _ => some s.a
  | .dec m => some (BitVec.ofNat 8 (v m + 255))
  | .inc m => some (BitVec.ofNat 8 (v m + 1))
  | .asl (.mem m) => some (BitVec.ofNat 8 (v m * 2))
  | .rol (.mem m) => some (BitVec.ofNat 8 (v m * 2 + carryIn s))
  | .lsr (.mem m) => some (BitVec.ofNat 8 (v m / 2))
  | .ror (.mem m) => some (BitVec.ofNat 8 (v m / 2 + 128 * carryIn s))
  | _ => none

/-- The write of an instruction that stores. -/
def storeOf (i : Instr) (s : State) : List Access :=
  match storeAddress i s, storedByte i s with
  | some w, some v => [.write w v]
  | _, _ => []

/-- The reads before the operand in the table of `44_step_engine_and_halt.md` R210: `R(PC+1)`,
`R(PC+2)`, then the pointer bytes of `sel` 0 and 4, addresses mod 256. -/
def readsBeforeOperand (m : Mode) (s : State) : List Access :=
  let zeroPage (n : Nat) : Access := .read (BitVec.ofNat 16 (n % 256))
  let next (n : Nat) : Access := .read (BitVec.ofNat 16 ((s.pc.toNat + n) % 65536))
  match m with
  | .indX lo =>
    [next 1, next 2, zeroPage (lo.toNat + s.x.toNat), zeroPage (lo.toNat + s.x.toNat + 1)]
  | .indY lo => [next 1, next 2, zeroPage lo.toNat, zeroPage (lo.toNat + 1)]
  | .zp _ | .imm _ | .abs _ | .zpX _ | .absY _ | .absX _ => [next 1, next 2]

/-- The table of `44_step_engine_and_halt.md` R210, the accesses after `R(PC)`. -/
def accessesAfterOpcode (i : Instr) (s : State) : List Access :=
  match i with
  | .ora m | .and m | .eor m | .adc m | .lda m | .cmp m | .sbc m | .bit m =>
    readsBeforeOperand m s ++ [.read (resolve m s).ea]
  | .sta m => readsBeforeOperand m s ++ storeOf i s
  | .dec m | .inc m | .asl (.mem m) | .rol (.mem m) | .lsr (.mem m) | .ror (.mem m) =>
    readsBeforeOperand m s ++ [.read (resolve m s).ea] ++ storeOf i s
  | .bpl _ | .bmi _ | .bvc _ | .bvs _ | .bcc _ | .bcs _ | .bne _ | .beq _ =>
    [.read (BitVec.ofNat 16 ((s.pc.toNat + 1) % 65536))]
  | .asl .acc | .rol .acc | .lsr .acc | .ror .acc => []
  | .tax | .tay | .txa | .tya | .tsx | .txs => []
  | .clc | .sec | .cli | .sei | .clv | .cld | .sed | .hlt => []
  | .illegalOpcode _ | .illegalMode _ => []

/-- The offset of a branch. -/
def branchOffset : Instr → Option Byte
  | .bpl off | .bmi off | .bvc off | .bvs off | .bcc off | .bcs off | .bne off | .beq off =>
    some off
  | _ => none

/-- The operand byte of an instruction in immediate mode. -/
def immediate : Instr → Option Byte
  | .ora (.imm v) | .and (.imm v) | .eor (.imm v) | .adc (.imm v) => some v
  | .lda (.imm v) | .cmp (.imm v) | .sbc (.imm v) => some v
  | _ => none

/-- `tgt = (PC + 2 + signed(off)) mod 65536` as a number. -/
def targetNumber (pc : Word) (off : Byte) : Int := (pc.toNat + 2 + off.toInt) % 65536

/-- The outcome of an instruction with its next state changed by `f`. -/
def mapNext (f : State → State) : Result → Result
  | .next t => .next (f t)
  | .fault kind => .fault kind
  | .refused reason => .refused reason

/-- `w` is read by one of these accesses. -/
def Reads (accesses : List Access) (w : Word) : Prop := Access.read w ∈ accesses

end Sys2Proof.Spec

open Sys2Proof Sys2Proof.Machine Sys2Proof.Spec

/-! ## Encoding -/

/-- Decoding the bytes of a well-formed instruction gives it back with every operand, and leaves
the bytes after it, whatever the halt opcode. The byte values of groups 0 and 2 are the spec's
choice (D2, log 15). -/
def Obligations.DecodeOfEncodeIsTheInstruction : Prop :=
  ∀ (halt : Option Byte) (i : Instr) (rest : List Byte), i.wfFor halt = true →
    decodeFor halt (encodeFor halt i ++ rest) = .ok (i, rest)

/-- The other direction: an instruction the decoder reads is well-formed, and its encoding is the
bytes it was read from. No two byte strings decode to one instruction. -/
def Obligations.EncodeOfDecodeIsTheBytes : Prop :=
  ∀ (halt : Option Byte) (bytes : List Byte) (i : Instr) (rest : List Byte),
    decodeFor halt bytes = .ok (i, rest) →
      i.wfFor halt = true ∧ encodeFor halt i ++ rest = bytes

/-- `30_encoding.md` R71: the three fields of the opcode byte and the inverse. -/
def Obligations.OpcodeFieldsRecomposeTheByte : Prop :=
  ∀ b : Byte,
    (decodeFields b).group = b.toNat % 4 ∧
    (decodeFields b).addrSel = b.toNat / 4 % 8 ∧
    (decodeFields b).opClass = b.toNat / 32 ∧
    opcodeByte (decodeFields b).opClass (decodeFields b).addrSel (decodeFields b).group = b ∧
    decodeFields 0xB1 = { group := 1, opClass := 5, addrSel := 4 }

/-- One word of each family, written from the opcode map, decodes to its instruction. -/
def Obligations.WordsOfTheOpcodeMapDecode : Prop :=
  decode [0xB1, 0x10] = .ok (.lda (.indY 0x10), []) ∧
  decode [0x9D, 0xFF, 0x00] = .ok (.sta (.absX 0x00FF), []) ∧
  decode [0x0A] = .ok (.asl .acc, []) ∧
  decode [0x1E, 0x34, 0x12] = .ok (.asl (.mem (.absX 0x1234)), []) ∧
  decode [0xC6, 0x21] = .ok (.dec (.zp 0x21), []) ∧
  decode [0x9A] = .ok (.txs, []) ∧
  decode [0xD0, 0xF9] = .ok (.bne 0xF9, []) ∧
  decode [0x78] = .ok (.sei, []) ∧
  decode [0x2C, 0x34, 0x12] = .ok (.bit (.abs 0x1234), []) ∧
  decode [0x00] = .ok (.hlt, []) ∧
  decode [0xFF] = .ok (.illegalOpcode 0xFF, []) ∧
  decode [0x89] = .ok (.illegalMode 0x89, [])

/-- How many bytes are of each class, with and without the halt opcode (D2, D8, log 15, 19). -/
def Obligations.ClassCountsOfThe256Bytes : Prop :=
  let count (halt : Option Byte) (is : OpcodeClass → Bool) :=
    (List.range 256).countP fun n => is (classify halt (BitVec.ofNat 8 n))
  let isMem | OpcodeClass.mem _ _ => true | _ => false
  let isAcc | OpcodeClass.acc _ => true | _ => false
  let isImpl | OpcodeClass.impl _ => true | _ => false
  let isRel | OpcodeClass.rel _ => true | _ => false
  count none isMem = 89 ∧ count none isAcc = 4 ∧ count none isImpl = 13 ∧ count none isRel = 8 ∧
  count none (· == .badMode) = 21 ∧ count none (· == .badOpcode) = 121 ∧
  count none (· == .halt) = 0 ∧
  count (some 0x00) (· == .badOpcode) = 120 ∧ count (some 0x00) (· == .halt) = 1

/-! ## The step and its errors -/

/-- When the bytes from `PC` on decode to `i` and the core is not halted, a step is `exec i`, and
`step` is that of the parameter values the spec takes (D7, log 1). The step adds nothing around
`exec`: the handlers commit `PC` themselves. -/
def Obligations.StepRunsTheDecodedInstruction : Prop :=
  (∀ (params : Params) (s : State) (i : Instr) (rest : List Byte), s.halted = false →
    decodeFor params.haltOpcode [s.read s.pc, s.read (s.pc + 1), s.read (s.pc + 2)] =
      .ok (i, rest) →
    stepWith params s = exec i s) ∧
  (∀ s : State, step s = stepWith Config.params s)

/-- `60_exceptions.md` R233: the error is raised exactly while `halted` is set, whatever the byte
at `PC`, which is not read. -/
def Obligations.HaltedViolationExactlyWhileHalted : Prop :=
  ∀ (params : Params) (s : State),
    (stepWith params s = .fault .haltedViolation ↔ s.halted = true) ∧
    (s.halted = true → stepAccesses params s = [])

/-- `IllegalOpcode` is raised exactly by the bytes of the spec's list, 121 of them, less the halt
opcode (which list a byte is on is partly D8, log 19). -/
def Obligations.IllegalOpcodeExactlyOnItsBytes : Prop :=
  (∀ (params : Params) (s : State),
    stepWith params s = .fault .illegalOpcode ↔
      s.halted = false ∧ isBadOpcode (s.read s.pc) = true ∧
        params.haltOpcode ≠ some (s.read s.pc)) ∧
  (∀ b : Byte, b.toNat % 4 = 3 → isBadOpcode b = true) ∧
  (List.range 256).countP (fun n => isBadOpcode (BitVec.ofNat 8 n)) = 121

/-- `IllegalAddressingMode` is raised exactly by the 21 bytes of the spec's list, less the halt
opcode (D8, log 19). -/
def Obligations.IllegalAddressingModeExactlyOnItsBytes : Prop :=
  (∀ (params : Params) (s : State),
    stepWith params s = .fault .illegalAddressingMode ↔
      s.halted = false ∧ isBadMode (s.read s.pc) = true ∧
        params.haltOpcode ≠ some (s.read s.pc)) ∧
  isBadMode 0x89 = true ∧
  (List.range 256).countP (fun n => isBadMode (BitVec.ofNat 8 n)) = 21

/-- A core that is not halted completes the step on every assigned byte and on the halt opcode,
and no step is refused. -/
def Obligations.StepCompletesOnAssignedBytes : Prop :=
  ∀ (params : Params) (s : State),
    (s.halted = false →
      (isUnassigned (s.read s.pc) = false ∨ params.haltOpcode = some (s.read s.pc)) →
      ∃ t, stepWith params s = .next t) ∧
    (∀ reason, stepWith params s ≠ .refused reason)

/-- Every well-formed instruction but an illegal byte completes in every state: a handler cannot
fail. -/
def Obligations.WellFormedInstructionsComplete : Prop :=
  ∀ (halt : Option Byte) (i : Instr) (s : State), i.wfFor halt = true →
    (∀ b, i ≠ .illegalOpcode b) → (∀ b, i ≠ .illegalMode b) → ∃ t, exec i s = .next t

/-- The illegal bytes raise their errors in every state. -/
def Obligations.IllegalBytesRaiseTheirErrors : Prop :=
  ∀ (b : Byte) (s : State),
    exec (.illegalOpcode b) s = .fault .illegalOpcode ∧
    exec (.illegalMode b) s = .fault .illegalAddressingMode

/-- An operation paired with a mode it does not have raises `IllegalAddressingMode`. No byte
decodes to such a pair; that `exec` raises the error on it is the model's choice (log 8). -/
def Obligations.UnsupportedPairingsRaise : Prop :=
  (∀ (v : Byte) (s : State), exec (.sta (.imm v)) s = .fault .illegalAddressingMode) ∧
  (∀ (m : Mode) (s : State), m.modifiable = false →
    exec (.asl (.mem m)) s = .fault .illegalAddressingMode ∧
    exec (.rol (.mem m)) s = .fault .illegalAddressingMode ∧
    exec (.lsr (.mem m)) s = .fault .illegalAddressingMode ∧
    exec (.ror (.mem m)) s = .fault .illegalAddressingMode ∧
    exec (.dec m) s = .fault .illegalAddressingMode ∧
    exec (.inc m) s = .fault .illegalAddressingMode) ∧
  (∀ (m : Mode) (s : State), m.bitTestable = false →
    exec (.bit m) s = .fault .illegalAddressingMode)

/-- A call either completes with the state of the step and the count that the table of
`70_reset_and_hazards.md` R262 gives the fetched instruction in the state before the step
(`CycleCounts` says which), `HALT_CYCLES` for HLT and 2 to 7 for every other, or returns one of the
three errors and the state unchanged. That an error commits nothing is D9 (log 18); the counts are
partly D13 and D14 (log 10). -/
def Obligations.CallReturnsOkOrAnErrorWithTheStateUnchanged : Prop :=
  ∀ (params : Params) (s : State),
    match call params s with
    | (t, .ok cycles) =>
      stepWith params s = .next t ∧
        cycles = instrCycles params.haltCycles (fetchInstr params.haltOpcode s) s ∧
        (if fetchInstr params.haltOpcode s = .hlt then cycles = params.haltCycles
          else 2 ≤ cycles ∧ cycles ≤ 7)
    | (t, .err kind) => stepWith params s = .fault kind ∧ t = s
    | (_, .noMeaning _) => False

/-! ## Invariants and memory -/

/-- A step keeps the canonical form of memory. -/
def Obligations.StepKeepsMemoryCanonical : Prop :=
  ∀ (params : Params) (s t : State), s.mem.wf = true → stepWith params s = .next t →
    t.mem.wf = true

/-- What reset leaves, for every value of the parameters, and that the first step fetches from
address 0 (`70_reset_and_hazards.md` R251). That flag `U` is clear is C2 and D16 (log 27); the
memory is the launch input (R254, log 26); `State.reset` takes the model's parameter values and
lists no byte (log 2, 4). -/
def Obligations.ResetLeavesTheSpecsValues : Prop :=
  ∀ (params : Params) (m : Memory),
    (State.launch params m).a = 0 ∧ (State.launch params m).x = 0 ∧
    (State.launch params m).y = 0 ∧ (State.launch params m).sp = params.spReset ∧
    (State.launch params m).pc = 0 ∧ (State.launch params m).mem = m ∧
    (∀ f, (State.launch params m).flag f = false) ∧
    (State.launch params m).halted = false ∧
    (∃ rest, stepAccesses params (State.launch params m) = .read 0x0000 :: rest) ∧
    State.reset = State.launch Config.params []

/-- Memory after reset is canonical and reads 0x00 everywhere, which is the model's choice
(log 4), and `SP` is 0xFD, the spec's (D16, log 2). -/
def Obligations.ResetMemoryIsCanonicalAndZero : Prop :=
  State.reset.mem.wf = true ∧ (∀ w, State.reset.read w = 0x00) ∧ State.reset.sp = 0xFD

/-- Equal memories are equal data: canonical lists that read the same are the same. -/
def Obligations.CanonicalMemoriesWithTheSameBytesAreEqual : Prop :=
  ∀ m m' : Memory, m.wf = true → m'.wf = true → (∀ w, m.read w = m'.read w) → m = m'

/-- Every launch input `MEM_INIT` is a memory of the model. -/
def Obligations.EveryLaunchInputIsAMemory : Prop :=
  ∀ f : Word → Byte, ∃ m : Memory, m.wf = true ∧ ∀ w, m.read w = f w

/-- A byte stored by STA is what LDA then loads from that address. -/
def Obligations.LoadAfterStoreGivesTheStoredByte : Prop :=
  ∀ (m : Mode) (s t u : State), exec (.sta m) s = .next t →
    exec (.lda (.abs (resolve m s).ea)) t = .next u → u.a = s.a

/-- Fetch is coherent with stores: when an instruction stores to the address of the next one, the
stored byte is the next opcode. STA in every mode and the six read-modify-write operations; the
instruction itself runs as it was fetched. -/
def Obligations.StoredByteIsTheNextOpcode : Prop :=
  ∀ (params : Params) (i : Instr) (s t : State) (v : Byte), exec i s = .next t →
    storeAddress i s = some (s.pc + BitVec.ofNat 16 i.length) → storedByte i s = some v →
    s.halted = false →
    stepWith params t =
      exec (decodeBytes params.haltOpcode v (s.read (s.pc + BitVec.ofNat 16 (i.length + 1)))
        (s.read (s.pc + BitVec.ofNat 16 (i.length + 2)))) t

/-! ## Whole-machine rules -/

/-- A step that completes was not halted before, and is halted after exactly when the byte at `PC`
is the halt opcode, an otherwise illegal byte. -/
def Obligations.OnlyTheHaltOpcodeHalts : Prop :=
  ∀ (params : Params) (s t : State), stepWith params s = .next t →
    s.halted = false ∧
    (t.halted = true ↔
      params.haltOpcode = some (s.read s.pc) ∧ isUnassigned (s.read s.pc) = true)

/-- The register part of every instruction's frame: `SP` changes only by TXS, `X` only by TAX and
TSX, `Y` only by TAY, `A` only by the instructions that write it, `halted` only by HLT. -/
def Obligations.RegistersChangeOnlyByTheirWriters : Prop :=
  ∀ (i : Instr) (s t : State), exec i s = .next t →
    (i ≠ .txs → t.sp = s.sp) ∧
    (i ≠ .tax → i ≠ .tsx → t.x = s.x) ∧
    (i ≠ .tay → t.y = s.y) ∧
    (writesA i = false → t.a = s.a) ∧
    (i ≠ .hlt → t.halted = s.halted)

/-- The flag part of every instruction's frame: a flag the instruction does not write keeps its
value (D20, log 31). -/
def Obligations.FlagsChangeOnlyByTheirWriters : Prop :=
  ∀ (i : Instr) (s t : State), exec i s = .next t → KeepsFlags s.p t.p (flagsWritten i)

/-- The memory part of every instruction's frame: every byte but the one stored to reads as
before, and a form that stores nothing changes no byte. -/
def Obligations.MemoryChangesOnlyAtTheStoreAddress : Prop :=
  ∀ (i : Instr) (s t : State), exec i s = .next t →
    ∀ w, storeAddress i s ≠ some w → t.read w = s.read w

/-- Every instruction but a taken branch goes on at the next instruction, addresses mod 65536
(D11, log 17), and a branch goes there or to its target. -/
def Obligations.PcAdvancesByTheLength : Prop :=
  ∀ (i : Instr) (s t : State), exec i s = .next t →
    t.pc.toNat = (s.pc.toNat + i.length) % 65536 ∨
    ∃ off, branchOffset i = some off ∧ (t.pc.toNat : Int) = targetNumber s.pc off

/-- Nothing but TSX reads `SP`: another value in `SP` makes no other difference. -/
def Obligations.OnlyTsxReadsSp : Prop :=
  ∀ (i : Instr) (s : State) (v : Byte), i ≠ .tsx →
    exec i (s.setSp v) = if i = .txs then exec i s else mapNext (fun t => t.setSp v) (exec i s)

/-- The flags `I`, `D`, `B` and `U` are storage: another value in one of them makes no other
difference to any instruction. ADC and SBC are binary whatever `D` holds (D18, log 20). -/
def Obligations.InertFlagsAreReadByNothing : Prop :=
  ∀ (i : Instr) (s : State) (f : Flag) (on : Bool), f ∈ [Flag.i, .d, .b, .u] →
    exec i (s.setFlag f on) =
      if f ∈ flagsWritten i then exec i s else mapNext (fun t => t.setFlag f on) (exec i s)

/-- The accesses of every step are those of the table of `44_step_engine_and_halt.md` R210, in its
order (D15, log 11; one write of a read-modify-write is D17, log 21). Memory after a step is memory
before it with their writes made, and only the last access can be a write. -/
def Obligations.MemoryIsTheReplayOfTheAccesses : Prop :=
  (∀ (params : Params) (s : State),
    stepAccesses params s =
      if s.halted then []
      else .read s.pc :: accessesAfterOpcode (fetchInstr params.haltOpcode s) s) ∧
  (∀ (params : Params) (s : State) (addr : Word) (v : Byte),
    Access.write addr v ∉ (stepAccesses params s).dropLast) ∧
  (∀ (params : Params) (s t : State), stepWith params s = .next t →
    t.mem = replayWrites s.mem (stepAccesses params s))

/-- A step depends on no byte of memory but those its accesses read: with any other memory that
agrees on them it has the same outcome and writes the same byte. The accesses are those of
`44_step_engine_and_halt.md` R210 (D15, log 11). -/
def Obligations.StepDependsOnlyOnTheBytesItReads : Prop :=
  ∀ (params : Params) (s : State) (m : Memory),
    (∀ w, Reads (stepAccesses params s) w → m.read w = s.mem.read w) →
    stepWith params { s with mem := m } =
      mapNext (fun t => { t with mem := replayWrites m (stepAccesses params s) })
        (stepWith params s)

/-! ## Group 1 -/

/-- The three logical operations and the load, in every mode (`41_group1_alu_load_store.md` R121,
R122, R123, R126, in the frame of R120). The immediate operand is the byte the instruction carries
(log 6); the opcode bytes are D3 (log 15); `PC` wraps (D11, log 17). -/
def Obligations.LogicAndLoadResults : Prop :=
  (∀ (m : Mode) (s : State), ∃ r q,
    exec (.ora m) s = .next { s with a := r, p := q, pc := pcAfter m s } ∧
    (∀ k, r.getLsbD k = (s.a.getLsbD k || (operand m s).getLsbD k)) ∧
    ShowsZN q r ∧ KeepsFlags s.p q [.z, .n] ∧
    ReadsOperand m s ∧ HasOpcode (.ora m) [0x01, 0x05, 0x09, 0x0D, 0x11, 0x15, 0x19, 0x1D] m.sel) ∧
  (∀ (m : Mode) (s : State), ∃ r q,
    exec (.and m) s = .next { s with a := r, p := q, pc := pcAfter m s } ∧
    (∀ k, r.getLsbD k = (s.a.getLsbD k && (operand m s).getLsbD k)) ∧
    ShowsZN q r ∧ KeepsFlags s.p q [.z, .n] ∧
    ReadsOperand m s ∧ HasOpcode (.and m) [0x21, 0x25, 0x29, 0x2D, 0x31, 0x35, 0x39, 0x3D] m.sel) ∧
  (∀ (m : Mode) (s : State), ∃ r q,
    exec (.eor m) s = .next { s with a := r, p := q, pc := pcAfter m s } ∧
    (∀ k, r.getLsbD k = (s.a.getLsbD k ^^ (operand m s).getLsbD k)) ∧
    ShowsZN q r ∧ KeepsFlags s.p q [.z, .n] ∧
    ReadsOperand m s ∧ HasOpcode (.eor m) [0x41, 0x45, 0x49, 0x4D, 0x51, 0x55, 0x59, 0x5D] m.sel) ∧
  (∀ (m : Mode) (s : State), ∃ q,
    exec (.lda m) s = .next { s with a := operand m s, p := q, pc := pcAfter m s } ∧
    ShowsZN q (operand m s) ∧ KeepsFlags s.p q [.z, .n] ∧
    ReadsOperand m s ∧ HasOpcode (.lda m) [0xA1, 0xA5, 0xA9, 0xAD, 0xB1, 0xB5, 0xB9, 0xBD] m.sel)

/-- ADC in every mode, with its carry and its overflow (`41_group1_alu_load_store.md` R124). That
it is binary whatever `P.D` holds is D18 (log 20); the immediate operand is the carried byte
(log 6); the opcode bytes are D3 (log 15); `PC` is that of R120 and wraps (log 17). -/
def Obligations.AdcResult : Prop :=
  ∀ (m : Mode) (s : State), ∃ r q,
    exec (.adc m) s = .next { s with a := r, p := q, pc := pcAfter m s } ∧
    r.toNat = (s.a.toNat + (operand m s).toNat + carryIn s) % 256 ∧
    getFlag q .c = decide (s.a.toNat + (operand m s).toNat + carryIn s > 255) ∧
    getFlag q .v =
      (s.a.getLsbD 7 == (operand m s).getLsbD 7 && r.getLsbD 7 != s.a.getLsbD 7) ∧
    ShowsZN q r ∧ KeepsFlags s.p q [.c, .v, .z, .n] ∧
    ReadsOperand m s ∧ HasOpcode (.adc m) [0x61, 0x65, 0x69, 0x6D, 0x71, 0x75, 0x79, 0x7D] m.sel

/-- SBC in every mode: the sum with the one's complement `255 - operand`, its carry and its
overflow (`41_group1_alu_load_store.md` R128). Binary whatever `P.D` holds is D18 (log 20); the
immediate operand is the carried byte (log 6); the opcode bytes are D3 (log 15); `PC` is that of
R120 and wraps (log 17). -/
def Obligations.SbcResult : Prop :=
  ∀ (m : Mode) (s : State), ∃ r q,
    exec (.sbc m) s = .next { s with a := r, p := q, pc := pcAfter m s } ∧
    r.toNat = (s.a.toNat + (255 - (operand m s).toNat) + carryIn s) % 256 ∧
    getFlag q .c = decide (s.a.toNat + (255 - (operand m s).toNat) + carryIn s > 255) ∧
    getFlag q .v =
      (s.a.getLsbD 7 == !(operand m s).getLsbD 7 && r.getLsbD 7 != s.a.getLsbD 7) ∧
    ShowsZN q r ∧ KeepsFlags s.p q [.c, .v, .z, .n] ∧
    ReadsOperand m s ∧ HasOpcode (.sbc m) [0xE1, 0xE5, 0xE9, 0xED, 0xF1, 0xF5, 0xF9, 0xFD] m.sel

/-- CMP in every mode: flags only (`41_group1_alu_load_store.md` R127). `V` and the flags it does
not list are kept (D20, log 31); the immediate operand is the carried byte (log 6); the opcode
bytes are D3 (log 15); `PC` is that of R120 and wraps (log 17). -/
def Obligations.CmpResult : Prop :=
  ∀ (m : Mode) (s : State), ∃ q,
    exec (.cmp m) s = .next { s with p := q, pc := pcAfter m s } ∧
    getFlag q .c = decide (s.a.toNat ≥ (operand m s).toNat) ∧
    ShowsZN q (s.a - operand m s) ∧ KeepsFlags s.p q [.c, .z, .n] ∧
    ReadsOperand m s ∧ HasOpcode (.cmp m) [0xC1, 0xC5, 0xC9, 0xCD, 0xD1, 0xD5, 0xD9, 0xDD] m.sel

/-- STA in its seven modes stores `A` at the effective address and changes nothing else; the byte
0x89 is no STA (`41_group1_alu_load_store.md` R125; opcode bytes D3, log 15; flags kept D20,
log 31; `PC` wraps, log 17). -/
def Obligations.StaResult : Prop :=
  (∀ (m : Mode) (s : State), m.storable = true → ∃ t,
    exec (.sta m) s = .next t ∧
    StoresOnly s t (resolve m s).ea s.a (pcAfter m s) ∧ t.p = s.p ∧
    HasOpcode (.sta m) [0x81, 0x85, 0x89, 0x8D, 0x91, 0x95, 0x99, 0x9D] m.sel) ∧
  (∀ lo : Byte, decode [0x89, lo] = .ok (.illegalMode 0x89, [lo]))

/-- `V` after ADC and SBC says that the signed result lies outside -128 to 127. -/
def Obligations.OverflowIsSignedOverflow : Prop :=
  ∀ (m : Mode) (s t u : State), exec (.adc m) s = .next t → exec (.sbc m) s = .next u →
    (t.flag .v = true ↔
      ¬ (-128 ≤ s.a.toInt + (operand m s).toInt + carryIn s ∧
        s.a.toInt + (operand m s).toInt + carryIn s ≤ 127)) ∧
    (u.flag .v = true ↔
      ¬ (-128 ≤ s.a.toInt - (operand m s).toInt - (1 - carryIn s) ∧
        s.a.toInt - (operand m s).toInt - (1 - carryIn s) ≤ 127))

/-- The corrected round trip (`90_conflicts.md` C3): ADC with carry-in `c`, then SBC of the same
operand with carry-in `1 - c`, leaves `A` as it was. -/
def Obligations.AdcThenSbcRestoresA : Prop :=
  ∀ (v : Byte) (s t u : State), exec (.adc (.imm v)) s = .next t →
    exec (.sbc (.imm v)) (t.setFlag .c (!s.flag .c)) = .next u → u.a = s.a

/-- Two ADCs chained through the carry add two 16-bit words. -/
def Obligations.ChainedAdcAddsWords : Prop :=
  ∀ (a1 a0 b1 b0 : Byte) (s t u : State),
    exec (.adc (.imm b0)) ((s.setFlag .c false).setA a0) = .next t →
    exec (.adc (.imm b1)) (t.setA a1) = .next u →
    65536 * carryIn u + (wordOf u.a t.a).toNat = (wordOf a1 a0).toNat + (wordOf b1 b0).toNat

/-- CMP leaves the `C`, `Z` and `N` of an SBC with carry set. -/
def Obligations.CmpShowsTheFlagsOfSbc : Prop :=
  ∀ (m : Mode) (s t u : State), exec (.cmp m) s = .next t →
    exec (.sbc m) (s.setFlag .c true) = .next u →
    t.flag .c = u.flag .c ∧ t.flag .z = u.flag .z ∧ t.flag .n = u.flag .n

/-! ## Shifts, increment, transfers -/

/-- ASL in both forms: bit 7 goes to `C`, bit 0 becomes 0. Its bytes and forms are those of
`30_encoding.md` R76 (byte values D2, log 15; forms D5, log 22). -/
def Obligations.AslResult : Prop :=
  (∀ s : State, ∃ r q,
    exec (.asl .acc) s = .next { s with a := r, p := q, pc := s.pc + 1 } ∧
    r.toNat = s.a.toNat * 2 % 256 ∧ getFlag q .c = s.a.getLsbD 7 ∧
    ShowsZN q r ∧ KeepsFlags s.p q [.c, .z, .n] ∧
    HasOpcode (.asl .acc) [0x02, 0x06, 0x0A, 0x0E, 0x12, 0x16, 0x1A, 0x1E] 2) ∧
  (∀ (m : Mode) (s : State), m.modifiable = true → ∃ t r,
    exec (.asl (.mem m)) s = .next t ∧ StoresOnly s t (resolve m s).ea r (pcAfter m s) ∧
    r.toNat = (s.read (resolve m s).ea).toNat * 2 % 256 ∧
    t.flag .c = (s.read (resolve m s).ea).getLsbD 7 ∧
    ShowsZN t.p r ∧ KeepsFlags s.p t.p [.c, .z, .n] ∧
    HasOpcode (.asl (.mem m)) [0x02, 0x06, 0x0A, 0x0E, 0x12, 0x16, 0x1A, 0x1E] m.sel)

/-- ROL in both forms: bit 7 goes to `C`, bit 0 becomes the old `C` (R76; D2, D5, log 15, 22). -/
def Obligations.RolResult : Prop :=
  (∀ s : State, ∃ r q,
    exec (.rol .acc) s = .next { s with a := r, p := q, pc := s.pc + 1 } ∧
    r.toNat = (s.a.toNat * 2 + carryIn s) % 256 ∧ getFlag q .c = s.a.getLsbD 7 ∧
    ShowsZN q r ∧ KeepsFlags s.p q [.c, .z, .n] ∧
    HasOpcode (.rol .acc) [0x22, 0x26, 0x2A, 0x2E, 0x32, 0x36, 0x3A, 0x3E] 2) ∧
  (∀ (m : Mode) (s : State), m.modifiable = true → ∃ t r,
    exec (.rol (.mem m)) s = .next t ∧ StoresOnly s t (resolve m s).ea r (pcAfter m s) ∧
    r.toNat = ((s.read (resolve m s).ea).toNat * 2 + carryIn s) % 256 ∧
    t.flag .c = (s.read (resolve m s).ea).getLsbD 7 ∧
    ShowsZN t.p r ∧ KeepsFlags s.p t.p [.c, .z, .n] ∧
    HasOpcode (.rol (.mem m)) [0x22, 0x26, 0x2A, 0x2E, 0x32, 0x36, 0x3A, 0x3E] m.sel)

/-- LSR in both forms: bit 0 goes to `C`, bit 7 becomes 0, `N` is cleared (R76; D2, D5, log 15,
22). -/
def Obligations.LsrResult : Prop :=
  (∀ s : State, ∃ r q,
    exec (.lsr .acc) s = .next { s with a := r, p := q, pc := s.pc + 1 } ∧
    r.toNat = s.a.toNat / 2 ∧ getFlag q .c = s.a.getLsbD 0 ∧
    getFlag q .z = decide (r.toNat = 0) ∧ getFlag q .n = false ∧
    KeepsFlags s.p q [.c, .z, .n] ∧
    HasOpcode (.lsr .acc) [0x42, 0x46, 0x4A, 0x4E, 0x52, 0x56, 0x5A, 0x5E] 2) ∧
  (∀ (m : Mode) (s : State), m.modifiable = true → ∃ t r,
    exec (.lsr (.mem m)) s = .next t ∧ StoresOnly s t (resolve m s).ea r (pcAfter m s) ∧
    r.toNat = (s.read (resolve m s).ea).toNat / 2 ∧
    t.flag .c = (s.read (resolve m s).ea).getLsbD 0 ∧
    t.flag .z = decide (r.toNat = 0) ∧ t.flag .n = false ∧ KeepsFlags s.p t.p [.c, .z, .n] ∧
    HasOpcode (.lsr (.mem m)) [0x42, 0x46, 0x4A, 0x4E, 0x52, 0x56, 0x5A, 0x5E] m.sel)

/-- ROR in both forms: bit 0 goes to `C`, bit 7 becomes the old `C` (R76; D2, D5, log 15, 22). -/
def Obligations.RorResult : Prop :=
  (∀ s : State, ∃ r q,
    exec (.ror .acc) s = .next { s with a := r, p := q, pc := s.pc + 1 } ∧
    r.toNat = s.a.toNat / 2 + 128 * carryIn s ∧ getFlag q .c = s.a.getLsbD 0 ∧
    ShowsZN q r ∧ KeepsFlags s.p q [.c, .z, .n] ∧
    HasOpcode (.ror .acc) [0x62, 0x66, 0x6A, 0x6E, 0x72, 0x76, 0x7A, 0x7E] 2) ∧
  (∀ (m : Mode) (s : State), m.modifiable = true → ∃ t r,
    exec (.ror (.mem m)) s = .next t ∧ StoresOnly s t (resolve m s).ea r (pcAfter m s) ∧
    r.toNat = (s.read (resolve m s).ea).toNat / 2 + 128 * carryIn s ∧
    t.flag .c = (s.read (resolve m s).ea).getLsbD 0 ∧
    ShowsZN t.p r ∧ KeepsFlags s.p t.p [.c, .z, .n] ∧
    HasOpcode (.ror (.mem m)) [0x62, 0x66, 0x6A, 0x6E, 0x72, 0x76, 0x7A, 0x7E] m.sel)

/-- DEC and INC in their four memory forms: the wrapping result, `Z` and `N`, and no carry (R76;
D2, D5, log 15, 22). -/
def Obligations.DecAndIncResults : Prop :=
  ∀ (m : Mode) (s : State), m.modifiable = true →
    (∃ t r, exec (.dec m) s = .next t ∧
      StoresOnly s t (resolve m s).ea r (pcAfter m s) ∧
      r.toNat = ((s.read (resolve m s).ea).toNat + 255) % 256 ∧
      ShowsZN t.p r ∧ KeepsFlags s.p t.p [.z, .n] ∧
      HasOpcode (.dec m) [0xC2, 0xC6, 0xCA, 0xCE, 0xD2, 0xD6, 0xDA, 0xDE] m.sel) ∧
    (∃ t r, exec (.inc m) s = .next t ∧
      StoresOnly s t (resolve m s).ea r (pcAfter m s) ∧
      r.toNat = ((s.read (resolve m s).ea).toNat + 1) % 256 ∧
      ShowsZN t.p r ∧ KeepsFlags s.p t.p [.z, .n] ∧
      HasOpcode (.inc m) [0xE2, 0xE6, 0xEA, 0xEE, 0xF2, 0xF6, 0xFA, 0xFE] m.sel)

/-- A rotate left and then a rotate right give back `A` and `C`: a 9-bit rotation. -/
def Obligations.RorUndoesRol : Prop :=
  ∀ (s t u : State), exec (.rol .acc) s = .next t → exec (.ror .acc) t = .next u →
    u.a = s.a ∧ u.flag .c = s.flag .c

/-- The six transfers: the destination, the flags of its new value for all but TXS, nothing else,
and their bytes (`30_encoding.md` R82; D2, D4, log 15). -/
def Obligations.TransferResults : Prop :=
  ∀ s : State,
    (∃ q, exec .tax s = .next { s with x := s.a, p := q, pc := s.pc + 1 } ∧
      ShowsZN q s.a ∧ KeepsFlags s.p q [.z, .n]) ∧
    (∃ q, exec .tay s = .next { s with y := s.a, p := q, pc := s.pc + 1 } ∧
      ShowsZN q s.a ∧ KeepsFlags s.p q [.z, .n]) ∧
    (∃ q, exec .txa s = .next { s with a := s.x, p := q, pc := s.pc + 1 } ∧
      ShowsZN q s.x ∧ KeepsFlags s.p q [.z, .n]) ∧
    (∃ q, exec .tya s = .next { s with a := s.y, p := q, pc := s.pc + 1 } ∧
      ShowsZN q s.y ∧ KeepsFlags s.p q [.z, .n]) ∧
    (∃ q, exec .tsx s = .next { s with x := s.sp, p := q, pc := s.pc + 1 } ∧
      ShowsZN q s.sp ∧ KeepsFlags s.p q [.z, .n]) ∧
    exec .txs s = .next { s with sp := s.x, pc := s.pc + 1 } ∧
    encode .tax = [0xAA] ∧ encode .tay = [0xA8] ∧ encode .txa = [0x8A] ∧
    encode .tya = [0x98] ∧ encode .tsx = [0xBA] ∧ encode .txs = [0x9A]

/-! ## Branches, flags, BIT, HLT -/

/-- The eight branches complete in every state, write `PC` and nothing else, and go to the target
exactly when their flag holds; their bytes are those of `30_encoding.md` R80 (D2, log 15). -/
def Obligations.BranchResults : Prop :=
  ∀ (off : Byte) (s : State),
    exec (.bpl off) s =
      .next { s with pc := if s.p.getLsbD 7 = false then branchTarget s off else s.pc + 2 } ∧
    exec (.bmi off) s =
      .next { s with pc := if s.p.getLsbD 7 = true then branchTarget s off else s.pc + 2 } ∧
    exec (.bvc off) s =
      .next { s with pc := if s.p.getLsbD 6 = false then branchTarget s off else s.pc + 2 } ∧
    exec (.bvs off) s =
      .next { s with pc := if s.p.getLsbD 6 = true then branchTarget s off else s.pc + 2 } ∧
    exec (.bcc off) s =
      .next { s with pc := if s.p.getLsbD 0 = false then branchTarget s off else s.pc + 2 } ∧
    exec (.bcs off) s =
      .next { s with pc := if s.p.getLsbD 0 = true then branchTarget s off else s.pc + 2 } ∧
    exec (.bne off) s =
      .next { s with pc := if s.p.getLsbD 1 = false then branchTarget s off else s.pc + 2 } ∧
    exec (.beq off) s =
      .next { s with pc := if s.p.getLsbD 1 = true then branchTarget s off else s.pc + 2 } ∧
    encode (.bpl off) = [0x10, off] ∧ encode (.bmi off) = [0x30, off] ∧
    encode (.bvc off) = [0x50, off] ∧ encode (.bvs off) = [0x70, off] ∧
    encode (.bcc off) = [0x90, off] ∧ encode (.bcs off) = [0xB0, off] ∧
    encode (.bne off) = [0xD0, off] ∧ encode (.beq off) = [0xF0, off]

/-- The branch target is ordinary signed addition modulo 65536, relative to the next instruction
(the base is D10, log 16; the wrap at both ends of the address space). -/
def Obligations.BranchTargetIsSignedAddition : Prop :=
  ∀ (s : State) (off : Byte),
    ((branchTarget s off).toNat : Int) = targetNumber s.pc off ∧
    branchTarget s off = s.pc + 2 + off.signExtend 16

/-- The seven flag operations: one bit of `P` gets a constant, nothing else changes; their bytes
are those of `30_encoding.md` R81 (D2, log 15). -/
def Obligations.FlagOperationResults : Prop :=
  ∀ s : State,
    exec .clc s = .next { s with p := s.p &&& 0xFE, pc := s.pc + 1 } ∧
    exec .sec s = .next { s with p := s.p ||| 0x01, pc := s.pc + 1 } ∧
    exec .cli s = .next { s with p := s.p &&& 0xFB, pc := s.pc + 1 } ∧
    exec .sei s = .next { s with p := s.p ||| 0x04, pc := s.pc + 1 } ∧
    exec .clv s = .next { s with p := s.p &&& 0xBF, pc := s.pc + 1 } ∧
    exec .cld s = .next { s with p := s.p &&& 0xF7, pc := s.pc + 1 } ∧
    exec .sed s = .next { s with p := s.p ||| 0x08, pc := s.pc + 1 } ∧
    encode .clc = [0x18] ∧ encode .sec = [0x38] ∧ encode .cli = [0x58] ∧ encode .sei = [0x78] ∧
    encode .clv = [0xB8] ∧ encode .cld = [0xD8] ∧ encode .sed = [0xF8]

/-- BIT in its two modes: `N` and `V` from the operand, `Z` from `A & operand`; its bytes are those
of `30_encoding.md` R79 (D2, log 15; modes D6, log 22). -/
def Obligations.BitResult : Prop :=
  ∀ (m : Mode) (s : State), m.bitTestable = true → ∃ q,
    exec (.bit m) s = .next { s with p := q, pc := pcAfter m s } ∧
    getFlag q .n = (s.read (resolve m s).ea).getLsbD 7 ∧
    getFlag q .v = (s.read (resolve m s).ea).getLsbD 6 ∧
    (getFlag q .z = true ↔
      ∀ k, ¬ (s.a.getLsbD k = true ∧ (s.read (resolve m s).ea).getLsbD k = true)) ∧
    KeepsFlags s.p q [.n, .v, .z] ∧
    HasOpcode (.bit m) [0x20, 0x24, 0x28, 0x2C] m.sel

/-- HLT completes in every state, sets `halted`, moves `PC` past its byte and changes nothing
else; that it moves `PC` is D7 (log 29). -/
def Obligations.HltResult : Prop :=
  ∀ s : State, exec .hlt s = .next { s with halted := true, pc := s.pc + 1 }

/-! ## The resolver -/

/-- The eight modes: effective address, page-cross output where it is always 0, length, base
cycles. Address sums are numbers, with the wrap at 256 or at 65536 in the text (D11, D12,
log 17). -/
def Obligations.ResolverModes : Prop :=
  ∀ (s : State) (lo : Byte) (w : Word),
    (resolve (.indX lo) s =
      { ea := wordOf (s.read (zext (lo + s.x + 1))) (s.read (zext (lo + s.x)))
        extra := 0, len := 2 } ∧ baseCycles (.indX lo) = 6) ∧
    (resolve (.zp lo) s = { ea := BitVec.ofNat 16 lo.toNat, extra := 0, len := 2 } ∧
      baseCycles (.zp lo) = 3) ∧
    (resolve (.imm lo) s = { ea := s.pc + 1, extra := 0, len := 2 } ∧
      baseCycles (.imm lo) = 2) ∧
    (resolve (.abs w) s = { ea := w, extra := 0, len := 3 } ∧ baseCycles (.abs w) = 4) ∧
    ((resolve (.indY lo) s).ea.toNat =
      ((s.read (zext (lo + 1))).toNat * 256 + (s.read (zext lo)).toNat + s.y.toNat) % 65536 ∧
      (resolve (.indY lo) s).len = 2 ∧ baseCycles (.indY lo) = 5) ∧
    (resolve (.zpX lo) s =
      { ea := BitVec.ofNat 16 ((lo.toNat + s.x.toNat) % 256), extra := 0, len := 2 } ∧
      baseCycles (.zpX lo) = 4) ∧
    ((resolve (.absY w) s).ea.toNat = (w.toNat + s.y.toNat) % 65536 ∧
      (resolve (.absY w) s).len = 3 ∧ baseCycles (.absY w) = 4) ∧
    ((resolve (.absX w) s).ea.toNat = (w.toNat + s.x.toNat) % 65536 ∧
      (resolve (.absX w) s).len = 3 ∧ baseCycles (.absX w) = 4)

/-- A page is crossed exactly when the low byte of the base and the index sum to 256 or more, and
never in the other five modes. -/
def Obligations.PageCrossIsACarryOutOfTheLowByte : Prop :=
  ∀ (m : Mode) (s : State),
    (resolve m s).extra =
      match m with
      | .indY lo => if (s.read (zext lo)).toNat + s.y.toNat ≥ 256 then 1 else 0
      | .absY base => if base.toNat % 256 + s.y.toNat ≥ 256 then 1 else 0
      | .absX base => if base.toNat % 256 + s.x.toNat ≥ 256 then 1 else 0
      | .indX _ | .zp _ | .imm _ | .abs _ | .zpX _ => 0

/-- The zero-page modes and every pointer fetch stay below address 0x0100. -/
def Obligations.ZeroPageAccessesStayInTheZeroPage : Prop :=
  ∀ (lo : Byte) (s : State),
    (resolve (.zp lo) s).ea.toNat < 256 ∧ (resolve (.zpX lo) s).ea.toNat < 256 ∧
    ∀ (m : Mode) (w : Word), Reads (resolverReads m s) w →
      w = s.pc + 1 ∨ w = s.pc + 2 ∨ w.toNat < 256

/-- The operand of a fetched immediate instruction is the byte at its effective address
`PC + 1`. -/
def Obligations.ImmediateOperandIsTheByteAfterTheOpcode : Prop :=
  ∀ (halt : Option Byte) (s : State) (v : Byte), immediate (fetchInstr halt s) = some v →
    operand (.imm v) s = s.read (resolve (.imm v) s).ea

/-! ## Cycles, runs, the host -/

/-- The cycle counts: those of the source's table, with the store asymmetry (D13, log 10) and the
counts the spec supplies (D14, log 10). -/
def Obligations.CycleCounts : Prop :=
  ∀ (h : Nat) (m : Mode) (s : State),
    (∀ i ∈ [Instr.ora m, .and m, .eor m, .adc m, .lda m, .cmp m, .sbc m],
      some (instrCycles h i s) = [6, 3, 2, 4, 5, 4, 4, 4][m.sel]?.map (· + (resolve m s).extra)) ∧
    (m.storable = true →
      some (instrCycles h (.sta m) s) = [6, 3, 0, 4, 6, 4, 5, 5][m.sel]?) ∧
    (m.bitTestable = true →
      some (instrCycles h (.bit m) s) = [0, 3, 0, 4][m.sel]?) ∧
    (m.modifiable = true →
      ∀ i ∈ [Instr.asl (.mem m), .rol (.mem m), .lsr (.mem m), .ror (.mem m), .dec m, .inc m],
        some (instrCycles h i s) = [0, 5, 0, 6, 0, 6, 0, 7][m.sel]?) ∧
    (∀ i ∈ [Instr.asl .acc, .rol .acc, .lsr .acc, .ror .acc, .tax, .tay, .txa, .tya, .tsx, .txs,
      .clc, .sec, .cli, .sei, .clv, .cld, .sed], instrCycles h i s = 2) ∧
    (∀ off, ∀ b ∈ [(Instr.bpl off, !s.flag .n), (.bmi off, s.flag .n), (.bvc off, !s.flag .v),
      (.bvs off, s.flag .v), (.bcc off, !s.flag .c), (.bcs off, s.flag .c),
      (.bne off, !s.flag .z), (.beq off, s.flag .z)],
      instrCycles h b.1 s =
        if b.2 = false then 2
        else if (branchTarget s off).toNat / 256 = (s.pc + 2).toNat / 256 then 3 else 4) ∧
    instrCycles h .hlt s = h

/-- A run that ends normally is over: a larger budget gives the same end, the core is halted, and
the next call is a `HaltedViolation`. -/
def Obligations.NormalEndOfARunIsFinal : Prop :=
  ∀ (params : Params) (n k : Nat) (s t : State), runFor params n s = .halted t →
    runFor params (n + k) s = .halted t ∧ stepWith params t = .fault .haltedViolation

/-- A taken branch to itself never ends a run: any of the eight branches with offset -2 and its
condition met succeeds in every step and changes nothing (byte values D2, offset base D10, log 15,
16). -/
def Obligations.BranchToItselfNeverEnds : Prop :=
  ∀ (params : Params) (s : State), s.halted = false → s.read (s.pc + 1) = 0xFE →
    ∀ b ∈ [((0x10 : Byte), !s.flag .n), (0x30, s.flag .n), (0x50, !s.flag .v), (0x70, s.flag .v),
      (0x90, !s.flag .c), (0xB0, s.flag .c), (0xD0, !s.flag .z), (0xF0, s.flag .z)],
      s.read s.pc = b.1 → b.2 = true → ∀ n, runFor params n s = .budget s

/-- Reset by the host gives the CPU state its initial values and leaves memory alone; clearing
`halted` after HLT resumes at the byte after it. -/
def Obligations.HostResetsAndResumes : Prop :=
  (∀ (params : Params) (s : State),
    hostAct params .reset s = State.launch params (hostAct params .reset s).mem ∧
    ∀ w, (hostAct params .reset s).read w = s.read w) ∧
  (∀ (params : Params) (s t : State), exec .hlt s = .next t →
    stepWith params (hostAct params (.writeHalted false) t) =
      exec (decodeBytes params.haltOpcode (s.read (s.pc + 1)) (s.read (s.pc + 2))
        (s.read (s.pc + 3))) { s with pc := s.pc + 1, halted := false })

/-! ## The status register -/

/-- `10_state.md` R31: `get` is the flag's bit of the byte, and `set` writes exactly that bit. -/
def Obligations.StatusRegisterIsAPureAccessor : Prop :=
  (∀ (p : Byte) (f g : Flag) (on : Bool),
    getFlag (putFlag p f on) g = if g = f then on else getFlag p g) ∧
  (∀ (p : Byte) (k : Nat) (f : Flag), [Flag.c, .z, .i, .d, .b, .u, .v, .n][k]? = some f →
    getFlag p f = p.getLsbD k ∧
    ∀ (on : Bool) (j : Nat), j < 8 →
      (putFlag p f on).getLsbD j = if j = k then on else p.getLsbD j)
end

