-- ==== Sys2Proof/Laws/Decode.lean ====
section
/-! SUPPORT. The helpers of the decoder and encoder: words and their halves, the opcode bytes and
the class each is of. -/

namespace Sys2Proof

theorem getLsbD_wordOf (hi lo : Byte) (i : Nat) :
    (wordOf hi lo).getLsbD i =
      if i < 8 then lo.getLsbD i else decide (i < 16) && hi.getLsbD (i - 8) := by
  by_cases h : i < 8
  · have : i < 16 := by omega
    simp [wordOf, zext, h, this]
  · by_cases h16 : i < 16
    · have h1 : i - 8 < 16 := by omega
      have h2 : lo.getLsbD i = false := BitVec.getLsbD_of_ge _ _ (by omega)
      simp [wordOf, zext, h, h16, h2]
    · simp [wordOf, zext, h, h16]

@[simp] theorem hiByte_wordOf (hi lo : Byte) : hiByte (wordOf hi lo) = hi := by
  refine BitVec.eq_of_getLsbD_eq fun i h => ?_
  have h1 : 8 + i < 16 := by omega
  have h2 : (wordOf hi lo).getLsbD (8 + i) = hi.getLsbD i := by
    rw [getLsbD_wordOf]; simp [h1]
  simpa [hiByte, h, h1] using h2

@[simp] theorem loByte_wordOf (hi lo : Byte) : loByte (wordOf hi lo) = lo := by
  refine BitVec.eq_of_getLsbD_eq fun i h => ?_
  simp [loByte, getLsbD_wordOf, h]

@[simp] theorem wordOf_halves (w : Word) : wordOf (hiByte w) (loByte w) = w := by
  refine BitVec.eq_of_getLsbD_eq fun i h => ?_
  rw [getLsbD_wordOf]
  by_cases hi : i < 8
  · simp [loByte, hi]
  · have h1 : i - 8 < 8 := by omega
    have h2 : 8 + (i - 8) = i := by omega
    simp [hiByte, hi, h, h1, h2]

@[simp] theorem zext_toNat (b : Byte) : (zext b).toNat = b.toNat := by
  simp [zext]
  omega

/-- `{hi, lo}` as a number: `hi * 256 + lo` (`00_scope.md` R10). -/
theorem wordOf_toNat (hi lo : Byte) : (wordOf hi lo).toNat = hi.toNat * 256 + lo.toNat := by
  have h1 := lo.isLt
  have h2 := hi.isLt
  rw [wordOf, BitVec.toNat_or, BitVec.toNat_shiftLeft, zext_toNat, zext_toNat, Nat.or_comm,
    Nat.mod_eq_of_lt (by rw [Nat.shiftLeft_eq]; omega), ← Nat.shiftLeft_add_eq_or_of_lt h1,
    Nat.shiftLeft_eq]

/-- The class of an assigned byte does not depend on the halt opcode. -/
theorem classify_of_assigned (halt : Option Byte) (b : Byte)
    (h1 : classifyAssigned b ≠ .badMode) (h2 : classifyAssigned b ≠ .badOpcode) :
    classify halt b = classifyAssigned b := by
  unfold classify
  split <;> simp_all

/-- `Classify` against the spec's own lists of illegal bytes (`30_encoding.md` R84). -/
theorem classifyAssigned_badOpcode (b : Byte) :
    classifyAssigned b = .badOpcode ↔ isBadOpcode b = true := by
  revert b; decide

/-- `Classify` against the spec's own lists of illegal bytes (`30_encoding.md` R85). -/
theorem classifyAssigned_badMode (b : Byte) :
    classifyAssigned b = .badMode ↔ isBadMode b = true := by
  revert b; decide

/-- The class of an unassigned byte: HLT if it is the halt opcode, else what it was. -/
theorem classify_of_unassigned (halt : Option Byte) (b : Byte) (h : isUnassigned b = true) :
    classify halt b = if halt = some b then .halt else classifyAssigned b := by
  have h1 := classifyAssigned_badOpcode b
  have h2 := classifyAssigned_badMode b
  unfold isUnassigned at h
  unfold classify
  split
  · simp_all
  · simp_all
  · simp_all

/-! The `addrSel` of each mode, a number that does not depend on the operand. -/

@[simp] theorem Mode.sel_indX (v : Byte) : (Mode.indX v).sel = 0 := rfl
@[simp] theorem Mode.sel_zp (v : Byte) : (Mode.zp v).sel = 1 := rfl
@[simp] theorem Mode.sel_imm (v : Byte) : (Mode.imm v).sel = 2 := rfl
@[simp] theorem Mode.sel_abs (v : Word) : (Mode.abs v).sel = 3 := rfl
@[simp] theorem Mode.sel_indY (v : Byte) : (Mode.indY v).sel = 4 := rfl
@[simp] theorem Mode.sel_zpX (v : Byte) : (Mode.zpX v).sel = 5 := rfl
@[simp] theorem Mode.sel_absY (v : Word) : (Mode.absY v).sel = 6 := rfl
@[simp] theorem Mode.sel_absX (v : Word) : (Mode.absX v).sel = 7 := rfl

/-! What the decoder answers on a list, by the class of its first byte. -/

theorem decodeFor_one (halt : Option Byte) (op : Byte) (rest : List Byte) (cls : OpcodeClass)
    (h : classify halt op = cls) (hl : cls.length = 1) :
    decodeFor halt (op :: rest) = .ok (cls.instr op 0 0, rest) := by
  simp [decodeFor, decodeBytes, h, hl]

theorem decodeFor_two (halt : Option Byte) (op lo : Byte) (rest : List Byte) (cls : OpcodeClass)
    (h : classify halt op = cls) (hl : cls.length = 2) :
    decodeFor halt (op :: lo :: rest) = .ok (cls.instr op lo 0, rest) := by
  simp [decodeFor, decodeBytes, h, hl]

theorem decodeFor_three (halt : Option Byte) (op lo hi : Byte) (rest : List Byte)
    (cls : OpcodeClass) (h : classify halt op = cls) (hl : cls.length = 3) :
    decodeFor halt (op :: lo :: hi :: rest) = .ok (cls.instr op lo hi, rest) := by
  simp [decodeFor, decodeBytes, h, hl]

theorem OpcodeClass.length_cases (cls : OpcodeClass) :
    cls.length = 1 ∨ cls.length = 2 ∨ cls.length = 3 := by
  cases cls with
  | mem op kind => cases kind <;> simp [OpcodeClass.length, ModeKind.length]
  | _ => first | exact Or.inl rfl | exact Or.inr (Or.inl rfl)

theorem classifyAssigned_ne_halt (b : Byte) : classifyAssigned b ≠ .halt := by
  revert b; decide

end Sys2Proof
end

