-- ==== Sys2Proof/Laws/State.lean ====
section
/-! SUPPORT. One lemma for each field of the state under each update of the state, so that no
proof unfolds an update. -/

namespace Sys2Proof.Machine

@[simp] theorem State.setA_a (s : State) (v : Byte) : (s.setA v).a = v := rfl
@[simp] theorem State.setA_x (s : State) (v : Byte) : (s.setA v).x = s.x := rfl
@[simp] theorem State.setA_y (s : State) (v : Byte) : (s.setA v).y = s.y := rfl
@[simp] theorem State.setA_sp (s : State) (v : Byte) : (s.setA v).sp = s.sp := rfl
@[simp] theorem State.setA_pc (s : State) (v : Byte) : (s.setA v).pc = s.pc := rfl
@[simp] theorem State.setA_p (s : State) (v : Byte) : (s.setA v).p = s.p := rfl
@[simp] theorem State.setA_halted (s : State) (v : Byte) : (s.setA v).halted = s.halted := rfl
@[simp] theorem State.setA_mem (s : State) (v : Byte) : (s.setA v).mem = s.mem := rfl
@[simp] theorem State.setA_read (s : State) (v : Byte) (w : Word) :
    (s.setA v).read w = s.read w := rfl
@[simp] theorem State.setA_flag (s : State) (v : Byte) (f : Flag) :
    (s.setA v).flag f = s.flag f := rfl

@[simp] theorem State.setX_a (s : State) (v : Byte) : (s.setX v).a = s.a := rfl
@[simp] theorem State.setX_x (s : State) (v : Byte) : (s.setX v).x = v := rfl
@[simp] theorem State.setX_y (s : State) (v : Byte) : (s.setX v).y = s.y := rfl
@[simp] theorem State.setX_sp (s : State) (v : Byte) : (s.setX v).sp = s.sp := rfl
@[simp] theorem State.setX_pc (s : State) (v : Byte) : (s.setX v).pc = s.pc := rfl
@[simp] theorem State.setX_p (s : State) (v : Byte) : (s.setX v).p = s.p := rfl
@[simp] theorem State.setX_halted (s : State) (v : Byte) : (s.setX v).halted = s.halted := rfl
@[simp] theorem State.setX_mem (s : State) (v : Byte) : (s.setX v).mem = s.mem := rfl
@[simp] theorem State.setX_read (s : State) (v : Byte) (w : Word) :
    (s.setX v).read w = s.read w := rfl
@[simp] theorem State.setX_flag (s : State) (v : Byte) (f : Flag) :
    (s.setX v).flag f = s.flag f := rfl

@[simp] theorem State.setY_a (s : State) (v : Byte) : (s.setY v).a = s.a := rfl
@[simp] theorem State.setY_x (s : State) (v : Byte) : (s.setY v).x = s.x := rfl
@[simp] theorem State.setY_y (s : State) (v : Byte) : (s.setY v).y = v := rfl
@[simp] theorem State.setY_sp (s : State) (v : Byte) : (s.setY v).sp = s.sp := rfl
@[simp] theorem State.setY_pc (s : State) (v : Byte) : (s.setY v).pc = s.pc := rfl
@[simp] theorem State.setY_p (s : State) (v : Byte) : (s.setY v).p = s.p := rfl
@[simp] theorem State.setY_halted (s : State) (v : Byte) : (s.setY v).halted = s.halted := rfl
@[simp] theorem State.setY_mem (s : State) (v : Byte) : (s.setY v).mem = s.mem := rfl
@[simp] theorem State.setY_read (s : State) (v : Byte) (w : Word) :
    (s.setY v).read w = s.read w := rfl
@[simp] theorem State.setY_flag (s : State) (v : Byte) (f : Flag) :
    (s.setY v).flag f = s.flag f := rfl

@[simp] theorem State.setSp_a (s : State) (v : Byte) : (s.setSp v).a = s.a := rfl
@[simp] theorem State.setSp_x (s : State) (v : Byte) : (s.setSp v).x = s.x := rfl
@[simp] theorem State.setSp_y (s : State) (v : Byte) : (s.setSp v).y = s.y := rfl
@[simp] theorem State.setSp_sp (s : State) (v : Byte) : (s.setSp v).sp = v := rfl
@[simp] theorem State.setSp_pc (s : State) (v : Byte) : (s.setSp v).pc = s.pc := rfl
@[simp] theorem State.setSp_p (s : State) (v : Byte) : (s.setSp v).p = s.p := rfl
@[simp] theorem State.setSp_halted (s : State) (v : Byte) : (s.setSp v).halted = s.halted := rfl
@[simp] theorem State.setSp_mem (s : State) (v : Byte) : (s.setSp v).mem = s.mem := rfl
@[simp] theorem State.setSp_read (s : State) (v : Byte) (w : Word) :
    (s.setSp v).read w = s.read w := rfl
@[simp] theorem State.setSp_flag (s : State) (v : Byte) (f : Flag) :
    (s.setSp v).flag f = s.flag f := rfl

@[simp] theorem State.setPc_a (s : State) (v : Word) : (s.setPc v).a = s.a := rfl
@[simp] theorem State.setPc_x (s : State) (v : Word) : (s.setPc v).x = s.x := rfl
@[simp] theorem State.setPc_y (s : State) (v : Word) : (s.setPc v).y = s.y := rfl
@[simp] theorem State.setPc_sp (s : State) (v : Word) : (s.setPc v).sp = s.sp := rfl
@[simp] theorem State.setPc_pc (s : State) (v : Word) : (s.setPc v).pc = v := rfl
@[simp] theorem State.setPc_p (s : State) (v : Word) : (s.setPc v).p = s.p := rfl
@[simp] theorem State.setPc_halted (s : State) (v : Word) : (s.setPc v).halted = s.halted := rfl
@[simp] theorem State.setPc_mem (s : State) (v : Word) : (s.setPc v).mem = s.mem := rfl
@[simp] theorem State.setPc_read (s : State) (v : Word) (w : Word) :
    (s.setPc v).read w = s.read w := rfl
@[simp] theorem State.setPc_flag (s : State) (v : Word) (f : Flag) :
    (s.setPc v).flag f = s.flag f := rfl

@[simp] theorem State.setP_a (s : State) (v : Byte) : (s.setP v).a = s.a := rfl
@[simp] theorem State.setP_x (s : State) (v : Byte) : (s.setP v).x = s.x := rfl
@[simp] theorem State.setP_y (s : State) (v : Byte) : (s.setP v).y = s.y := rfl
@[simp] theorem State.setP_sp (s : State) (v : Byte) : (s.setP v).sp = s.sp := rfl
@[simp] theorem State.setP_pc (s : State) (v : Byte) : (s.setP v).pc = s.pc := rfl
@[simp] theorem State.setP_p (s : State) (v : Byte) : (s.setP v).p = v := rfl
@[simp] theorem State.setP_halted (s : State) (v : Byte) : (s.setP v).halted = s.halted := rfl
@[simp] theorem State.setP_mem (s : State) (v : Byte) : (s.setP v).mem = s.mem := rfl
@[simp] theorem State.setP_read (s : State) (v : Byte) (w : Word) :
    (s.setP v).read w = s.read w := rfl

@[simp] theorem State.setHalted_a (s : State) (v : Bool) : (s.setHalted v).a = s.a := rfl
@[simp] theorem State.setHalted_x (s : State) (v : Bool) : (s.setHalted v).x = s.x := rfl
@[simp] theorem State.setHalted_y (s : State) (v : Bool) : (s.setHalted v).y = s.y := rfl
@[simp] theorem State.setHalted_sp (s : State) (v : Bool) : (s.setHalted v).sp = s.sp := rfl
@[simp] theorem State.setHalted_pc (s : State) (v : Bool) : (s.setHalted v).pc = s.pc := rfl
@[simp] theorem State.setHalted_p (s : State) (v : Bool) : (s.setHalted v).p = s.p := rfl
@[simp] theorem State.setHalted_halted (s : State) (v : Bool) : (s.setHalted v).halted = v := rfl
@[simp] theorem State.setHalted_mem (s : State) (v : Bool) : (s.setHalted v).mem = s.mem := rfl
@[simp] theorem State.setHalted_read (s : State) (v : Bool) (w : Word) :
    (s.setHalted v).read w = s.read w := rfl
@[simp] theorem State.setHalted_flag (s : State) (v : Bool) (f : Flag) :
    (s.setHalted v).flag f = s.flag f := rfl

@[simp] theorem State.write_a (s : State) (w : Word) (v : Byte) : (s.write w v).a = s.a := rfl
@[simp] theorem State.write_x (s : State) (w : Word) (v : Byte) : (s.write w v).x = s.x := rfl
@[simp] theorem State.write_y (s : State) (w : Word) (v : Byte) : (s.write w v).y = s.y := rfl
@[simp] theorem State.write_sp (s : State) (w : Word) (v : Byte) : (s.write w v).sp = s.sp := rfl
@[simp] theorem State.write_pc (s : State) (w : Word) (v : Byte) : (s.write w v).pc = s.pc := rfl
@[simp] theorem State.write_p (s : State) (w : Word) (v : Byte) : (s.write w v).p = s.p := rfl
@[simp] theorem State.write_halted (s : State) (w : Word) (v : Byte) : (s.write w v).halted = s.halted := rfl
@[simp] theorem State.write_mem (s : State) (w : Word) (v : Byte) : (s.write w v).mem = s.mem.write w v := rfl
@[simp] theorem State.write_flag (s : State) (w : Word) (v : Byte) (f : Flag) :
    (s.write w v).flag f = s.flag f := rfl

@[simp] theorem State.setFlag_a (s : State) (f : Flag) (on : Bool) : (s.setFlag f on).a = s.a := rfl
@[simp] theorem State.setFlag_x (s : State) (f : Flag) (on : Bool) : (s.setFlag f on).x = s.x := rfl
@[simp] theorem State.setFlag_y (s : State) (f : Flag) (on : Bool) : (s.setFlag f on).y = s.y := rfl
@[simp] theorem State.setFlag_sp (s : State) (f : Flag) (on : Bool) : (s.setFlag f on).sp = s.sp := rfl
@[simp] theorem State.setFlag_pc (s : State) (f : Flag) (on : Bool) : (s.setFlag f on).pc = s.pc := rfl
@[simp] theorem State.setFlag_halted (s : State) (f : Flag) (on : Bool) : (s.setFlag f on).halted = s.halted := rfl
@[simp] theorem State.setFlag_mem (s : State) (f : Flag) (on : Bool) : (s.setFlag f on).mem = s.mem := rfl
@[simp] theorem State.setFlag_read (s : State) (f : Flag) (on : Bool) (w : Word) :
    (s.setFlag f on).read w = s.read w := rfl

@[simp] theorem State.setZN_a (s : State) (r : Byte) : (s.setZN r).a = s.a := rfl
@[simp] theorem State.setZN_x (s : State) (r : Byte) : (s.setZN r).x = s.x := rfl
@[simp] theorem State.setZN_y (s : State) (r : Byte) : (s.setZN r).y = s.y := rfl
@[simp] theorem State.setZN_sp (s : State) (r : Byte) : (s.setZN r).sp = s.sp := rfl
@[simp] theorem State.setZN_pc (s : State) (r : Byte) : (s.setZN r).pc = s.pc := rfl
@[simp] theorem State.setZN_halted (s : State) (r : Byte) : (s.setZN r).halted = s.halted := rfl
@[simp] theorem State.setZN_mem (s : State) (r : Byte) : (s.setZN r).mem = s.mem := rfl
@[simp] theorem State.setZN_read (s : State) (r : Byte) (w : Word) :
    (s.setZN r).read w = s.read w := rfl

@[simp] theorem State.setFlag_p (s : State) (f : Flag) (on : Bool) :
    (s.setFlag f on).p = putFlag s.p f on := rfl
@[simp] theorem State.setZN_p (s : State) (r : Byte) :
    (s.setZN r).p = putFlag (putFlag s.p .z (decide (r = 0))) .n r.msb := rfl
@[simp] theorem State.setP_flag (s : State) (v : Byte) (f : Flag) :
    (s.setP v).flag f = getFlag v f := rfl
theorem State.flag_eq (s : State) (f : Flag) : s.flag f = getFlag s.p f := rfl
theorem State.read_eq (s : State) (w : Word) : s.read w = s.mem.read w := rfl

end Sys2Proof.Machine
end

