-- ==== Sys2Proof/Laws/Flags.lean ====
section
/-! SUPPORT. The status register as a pure accessor (`10_state.md` R31), and the flags after the
shared flag updates. -/

namespace Sys2Proof.Machine

theorem Flag.index_lt (f : Flag) : f.index < 8 := by cases f <;> decide

theorem Flag.index_inj {f g : Flag} (h : f.index = g.index) : f = g := by
  cases f <;> cases g <;> first | rfl | exact absurd h (by decide)

/-- `10_state.md` R31: `set` changes exactly that flag. -/
@[simp] theorem getFlag_putFlag (p : Byte) (f g : Flag) (on : Bool) :
    getFlag (putFlag p f on) g = if g = f then on else getFlag p g := by
  have hmask : f.mask.getLsbD g.index = decide (g = f) := by
    cases f <;> cases g <;> rfl
  have hg := g.index_lt
  unfold getFlag putFlag
  cases on
  · rw [if_neg (by simp), BitVec.getLsbD_and, BitVec.getLsbD_not, hmask]
    by_cases h : g = f <;> simp [h, hg]
  · rw [if_pos rfl, BitVec.getLsbD_or, hmask]
    by_cases h : g = f <;> simp [h]

@[simp] theorem State.flag_setFlag (s : State) (f g : Flag) (on : Bool) :
    (s.setFlag f on).flag g = if g = f then on else s.flag g := getFlag_putFlag _ _ _ _

/-- `10_state.md` R33: `SetZN` writes `Z` and `N` and no other flag. -/
@[simp] theorem State.flag_setZN (s : State) (r : Byte) (g : Flag) :
    (s.setZN r).flag g =
      if g = .n then r.msb else if g = .z then decide (r = 0) else s.flag g := by
  simp [State.setZN]

/-- Two status bytes with the same eight flags are equal. -/
theorem status_ext {p q : Byte} (h : ∀ f, getFlag p f = getFlag q f) : p = q := by
  refine BitVec.eq_of_getLsbD_eq fun i hi => ?_
  have hi : i = 0 ∨ i = 1 ∨ i = 2 ∨ i = 3 ∨ i = 4 ∨ i = 5 ∨ i = 6 ∨ i = 7 := by omega
  rcases hi with h0 | h1 | h2 | h3 | h4 | h5 | h6 | h7
  · subst h0; exact h .c
  · subst h1; exact h .z
  · subst h2; exact h .i
  · subst h3; exact h .d
  · subst h4; exact h .b
  · subst h5; exact h .u
  · subst h6; exact h .v
  · subst h7; exact h .n

end Sys2Proof.Machine
end

