-- ==== Sys2Proof/Laws/Memory.lean ====
section
/-! SUPPORT. Memory: a read after a write (on every list, canonical or not), and that every
operation on memory keeps the canonical form. -/

namespace Sys2Proof.Machine

@[simp] theorem Memory.readKey_nil (k : Nat) : Memory.readKey k [] = Config.unlistedByte := rfl

@[simp] theorem Memory.read_nil (w : Word) : Memory.read [] w = Config.unlistedByte := rfl

/-- Cells with keys up to `k` do not matter to a read above `k`. -/
theorem Memory.readKey_dropWhile (k j : Nat) (m : Memory) :
    Memory.readKey j (m.dropWhile fun c => decide (c.1 ≤ k)) =
      if j ≤ k then Config.unlistedByte else Memory.readKey j m := by
  induction m with
  | nil => simp
  | cons c rest ih =>
    obtain ⟨a, v⟩ := c
    by_cases h : a ≤ k
    · rw [List.dropWhile_cons_of_pos (by simpa using h), ih]
      by_cases hj : j ≤ k
      · simp [hj]
      · have h1 : ¬ j < a := by omega
        have h2 : j ≠ a := by omega
        simp [Memory.readKey, hj, h1, h2]
    · rw [List.dropWhile_cons_of_neg (by simpa using h)]
      by_cases hj : j ≤ k
      · have h1 : j < a := by omega
        simp [Memory.readKey, hj, h1]
      · simp [hj]

/-- A cell put in front of a list whose reads up to `k` are unlisted. -/
theorem Memory.readKey_consCell (k j : Nat) (v : Byte) (rest : Memory)
    (h : ∀ i, i ≤ k → Memory.readKey i rest = Config.unlistedByte) :
    Memory.readKey j (Memory.consCell k v rest) = if j = k then v else Memory.readKey j rest := by
  unfold Memory.consCell
  split
  · rename_i hv
    by_cases hj : j = k
    · subst hj; simp [h _ (Nat.le_refl _), hv]
    · simp [hj]
  · by_cases h1 : j < k
    · have h2 : j ≠ k := by omega
      simp [Memory.readKey, h1, h2, h j (by omega)]
    · by_cases h2 : j = k
      · simp [Memory.readKey, h2]
      · simp [Memory.readKey, h1, h2]

/-- A read after a write: the byte written at its own key, the old byte everywhere else. -/
theorem Memory.readKey_writeKey (k j : Nat) (v : Byte) (m : Memory) :
    Memory.readKey j (Memory.writeKey k v m) = if j = k then v else Memory.readKey j m := by
  induction m with
  | nil => exact Memory.readKey_consCell k j v [] (by simp)
  | cons c rest ih =>
    obtain ⟨a, w⟩ := c
    unfold Memory.writeKey
    split
    · rename_i h
      refine Memory.readKey_consCell k j v _ fun i hi => ?_
      have : i < a := by omega
      simp [Memory.readKey, this]
    · split
      · rename_i h1 h2
        subst h2
        rw [Memory.readKey_consCell _ _ _ _ fun i hi => by
          simp [Memory.readKey_dropWhile, hi]]
        by_cases hj : j = k
        · simp [hj]
        · rw [Memory.readKey_dropWhile]
          by_cases hlt : j < k
          · have : j ≤ k := by omega
            simp [Memory.readKey, hj, hlt, this]
          · have : ¬ j ≤ k := by omega
            simp [Memory.readKey, hj, hlt, this]
      · rename_i h1 h2
        rw [Memory.readKey, Memory.readKey, ih]
        by_cases hj : j = k
        · subst hj
          simp [h1, h2]
        · simp [hj]

/-- `20_memory.md` R52 and R60: a read gives the byte last written to the address. -/
theorem Memory.read_write (m : Memory) (w : Word) (v : Byte) (r : Word) :
    (m.write w v).read r = if r = w then v else m.read r := by
  unfold Memory.read Memory.write
  rw [Memory.readKey_writeKey]
  simp [BitVec.toNat_inj]

@[simp] theorem Memory.read_write_same (m : Memory) (w : Word) (v : Byte) :
    (m.write w v).read w = v := by simp [Memory.read_write]

theorem Memory.read_write_other (m : Memory) (w : Word) (v : Byte) (r : Word) (h : r ≠ w) :
    (m.write w v).read r = m.read r := by simp [Memory.read_write, h]

theorem State.read_write (s : State) (w : Word) (v : Byte) (r : Word) :
    (s.write w v).read r = if r = w then v else s.read r := Memory.read_write _ _ _ _

/-! ## The canonical form -/

theorem Memory.wfFrom_cons (lo a : Nat) (v : Byte) (rest : Memory) :
    Memory.wfFrom lo ((a, v) :: rest) = true ↔
      lo ≤ a ∧ a < 65536 ∧ v ≠ Config.unlistedByte ∧ Memory.wfFrom (a + 1) rest = true := by
  simp [Memory.wfFrom, and_assoc]

theorem Memory.wfFrom_mono (lo lo' : Nat) (m : Memory) (hle : lo' ≤ lo)
    (h : Memory.wfFrom lo m = true) : Memory.wfFrom lo' m = true := by
  cases m with
  | nil => rfl
  | cons c rest =>
    obtain ⟨a, v⟩ := c
    rw [Memory.wfFrom_cons] at *
    exact ⟨by omega, h.2⟩

theorem Memory.wfFrom_consCell (lo k : Nat) (v : Byte) (rest : Memory) (hlo : lo ≤ k)
    (hk : k < 65536) (h : Memory.wfFrom (k + 1) rest = true) :
    Memory.wfFrom lo (Memory.consCell k v rest) = true := by
  unfold Memory.consCell
  split
  · exact Memory.wfFrom_mono _ _ _ (by omega) h
  · rename_i hv
    rw [Memory.wfFrom_cons]
    exact ⟨hlo, hk, hv, h⟩

/-- In a canonical list no cell after key `k` has a key up to `k`. -/
theorem Memory.dropWhile_of_wfFrom (k : Nat) (m : Memory) (h : Memory.wfFrom (k + 1) m = true) :
    (m.dropWhile fun c => decide (c.1 ≤ k)) = m := by
  cases m with
  | nil => rfl
  | cons c rest =>
    obtain ⟨a, v⟩ := c
    rw [Memory.wfFrom_cons] at h
    rw [List.dropWhile_cons_of_neg]
    have := h.1
    simp only [decide_eq_true_eq]
    omega

theorem Memory.wfFrom_writeKey (lo k : Nat) (v : Byte) (m : Memory) (hlo : lo ≤ k)
    (hk : k < 65536) (h : Memory.wfFrom lo m = true) :
    Memory.wfFrom lo (Memory.writeKey k v m) = true := by
  induction m generalizing lo with
  | nil => exact Memory.wfFrom_consCell _ _ _ _ hlo hk rfl
  | cons c rest ih =>
    obtain ⟨a, w⟩ := c
    have hc := (Memory.wfFrom_cons _ _ _ _).1 h
    unfold Memory.writeKey
    split
    · refine Memory.wfFrom_consCell _ _ _ _ hlo hk ?_
      rw [Memory.wfFrom_cons]
      exact ⟨by omega, hc.2⟩
    · split
      · rename_i h2
        subst h2
        rw [Memory.dropWhile_of_wfFrom _ _ hc.2.2.2]
        exact Memory.wfFrom_consCell _ _ _ _ hlo hk hc.2.2.2
      · rw [Memory.wfFrom_cons]
        exact ⟨hc.1, hc.2.1, hc.2.2.1, ih (a + 1) (by omega) hc.2.2.2⟩

/-- A write keeps the canonical form. -/
theorem Memory.wf_write (m : Memory) (w : Word) (v : Byte) (h : m.wf = true) :
    (m.write w v).wf = true :=
  Memory.wfFrom_writeKey 0 w.toNat v m (Nat.zero_le _) w.isLt h

/-- A launch input becomes a canonical memory. -/
theorem Memory.wf_ofFn (f : Nat → Byte) (n : Nat) (hn : n ≤ 65536) :
    (Memory.ofFn f n).wf = true := by
  induction n with
  | zero => rfl
  | succ k ih =>
    exact Memory.wfFrom_writeKey 0 k (f k) _ (Nat.zero_le _) (by omega) (ih (by omega))

/-- A move of the host keeps the canonical form. -/
theorem hostAct_wf (params : Params) (act : HostAction) (s : State) (h : s.mem.wf = true) :
    (hostAct params act s).mem.wf = true := by
  cases act with
  | writeByte addr v => exact Memory.wf_write _ _ _ h
  | _ => exact h

end Sys2Proof.Machine
end

