-- ==== Sys2Proof/Laws/Ops.lean ====
section
/-! SUPPORT. One lemma for each shared operation of the meanings that says everything it can do.
The meanings are one call of these; later proofs cite them and unfold neither. -/

namespace Sys2Proof.Machine

theorem commit_eq (len : Nat) (s : State) :
    commit len s = .next (s.setPc (s.pc + BitVec.ofNat 16 len)) := rfl

theorem raise_eq (kind : Fault) (s : State) : raise kind s = .fault kind := rfl

theorem loadA_eq (m : Mode) (r : Byte) (s : State) :
    loadA m r s =
      .next (((s.setA r).setZN r).setPc (s.pc + BitVec.ofNat 16 (resolve m s).len)) := rfl

theorem loadSum_eq (m : Mode) (r : SumOut) (s : State) :
    loadSum m r s =
      .next (((((s.setFlag .c r.carry).setFlag .v r.overflow).setA r.value).setZN r.value).setPc
        (s.pc + BitVec.ofNat 16 (resolve m s).len)) := rfl

theorem execSta_eq (m : Mode) (s : State) (h : m.storable = true) :
    execSta m s =
      .next ((s.write (resolve m s).ea s.a).setPc (s.pc + BitVec.ofNat 16 (resolve m s).len)) := by
  simp [execSta, h, commit_eq]

theorem execSta_raises (m : Mode) (s : State) (h : m.storable = false) :
    execSta m s = .fault .illegalAddressingMode := by
  simp [execSta, h, raise_eq]

theorem execCmp_eq (m : Mode) (s : State) :
    execCmp m s =
      .next (((s.setFlag .c (noBorrow s.a (operand m s))).setZN
        (difference s.a (operand m s))).setPc (s.pc + BitVec.ofNat 16 (resolve m s).len)) := rfl

/-- The flag part of a read-modify-write keeps everything but `P`. -/
@[simp] theorem shiftFlags_eq (r : ShiftOut) (s : State) :
    shiftFlags r s = (s.setFlag .c r.carry).setZN r.value := rfl

theorem modify_eq (m : Mode) (v : Byte) (update : State → State) (s : State)
    (h : m.modifiable = true) :
    modify m v update s =
      .next (((update s).write (resolve m s).ea v).setPc
        ((update s).pc + BitVec.ofNat 16 (resolve m s).len)) := by
  simp [modify, h, commit_eq]

theorem modify_raises (m : Mode) (v : Byte) (update : State → State) (s : State)
    (h : m.modifiable = false) : modify m v update s = .fault .illegalAddressingMode := by
  simp [modify, h, raise_eq]

theorem shift_acc (op : Byte → Bool → ShiftOut) (s : State) :
    shift op .acc s =
      .next ((((s.setFlag .c (op s.a (s.flag .c)).carry).setZN (op s.a (s.flag .c)).value).setA
        (op s.a (s.flag .c)).value).setPc (s.pc + 1)) := rfl

theorem shift_mem (op : Byte → Bool → ShiftOut) (m : Mode) (s : State)
    (h : m.modifiable = true) :
    shift op (.mem m) s =
      .next ((((s.setFlag .c (op (operand m s) (s.flag .c)).carry).setZN
        (op (operand m s) (s.flag .c)).value).write (resolve m s).ea
        (op (operand m s) (s.flag .c)).value).setPc
        (s.pc + BitVec.ofNat 16 (resolve m s).len)) := by
  simp [shift, modify_eq, h]

theorem shift_mem_raises (op : Byte → Bool → ShiftOut) (m : Mode) (s : State)
    (h : m.modifiable = false) : shift op (.mem m) s = .fault .illegalAddressingMode := by
  simp [shift, modify_raises, h]

theorem modifyZN_eq (m : Mode) (r : Byte) (s : State) (h : m.modifiable = true) :
    modifyZN m r s =
      .next (((s.setZN r).write (resolve m s).ea r).setPc
        (s.pc + BitVec.ofNat 16 (resolve m s).len)) := by
  simp [modifyZN, modify_eq, h]

theorem modifyZN_raises (m : Mode) (r : Byte) (s : State) (h : m.modifiable = false) :
    modifyZN m r s = .fault .illegalAddressingMode := modify_raises _ _ _ _ h

theorem branch_eq (cond : Bool) (off : Byte) (s : State) :
    branch cond off s =
      .next (s.setPc (if cond then branchTarget s off else afterBranch s)) := rfl

theorem flagOp_eq (f : Flag) (on : Bool) (s : State) :
    flagOp f on s = .next ((s.setFlag f on).setPc (s.pc + 1)) := rfl

theorem execBit_eq (m : Mode) (s : State) (h : m.bitTestable = true) :
    execBit m s =
      .next ((((s.setFlag .n ((operand m s).getLsbD 7)).setFlag .v
        ((operand m s).getLsbD 6)).setFlag .z (decide (s.a &&& operand m s = 0))).setPc
        (s.pc + BitVec.ofNat 16 (resolve m s).len)) := by
  simp [execBit, h, commit_eq]

theorem execBit_raises (m : Mode) (s : State) (h : m.bitTestable = false) :
    execBit m s = .fault .illegalAddressingMode := by
  simp [execBit, h, raise_eq]

/-! ## The resolver -/

/-- The length the resolver returns is the mode's. -/
theorem resolve_len (m : Mode) (s : State) : (resolve m s).len = m.length := by
  cases m <;> rfl

@[simp] theorem indexed_ea (base : Word) (index : Byte) (len : Nat) :
    (indexed base index len).ea = base + zext index := rfl

/-- The operand is the byte at the effective address, in every mode but immediate. -/
theorem operand_of_not_imm (m : Mode) (s : State) (h : ∀ v, m ≠ .imm v) :
    operand m s = s.read (resolve m s).ea := by
  cases m <;> first | rfl | exact absurd rfl (h _)

/-! ## The step -/

theorem stepWith_halted (params : Params) (s : State) (h : s.halted = true) :
    stepWith params s = .fault .haltedViolation := by
  simp [stepWith, h, raise_eq]

theorem stepWith_running (params : Params) (s : State) (h : s.halted = false) :
    stepWith params s = exec (fetchInstr params.haltOpcode s) s := by
  simp [stepWith, h]

end Sys2Proof.Machine
end

