-- ==== Sys2Proof/Laws/PerInstr.lean ====
section
/-! SUPPORT. For each instruction: its encoding has the length `30_encoding.md` R72 and R73 give
it. -/

namespace Sys2Proof.Laws

theorem mode_bytes_length (m : Mode) : m.bytes.length + 1 = m.length := by
  cases m <;> rfl

theorem encodeShift_length (opClass : Nat) (o : ShiftOperand) :
    (encodeShift opClass o).length = (Instr.asl o).length := by
  cases o with
  | acc => rfl
  | mem m => exact mode_bytes_length m

/-- The bytes of a well-formed instruction are as many as its length. -/
def EncodedLength.Statement (i : Instr) : Prop :=
  ∀ halt : Option Byte, i.wfFor halt = true → (encodeFor halt i).length = i.length

theorem EncodedLength.ora (m : Mode) : EncodedLength.Statement (.ora m) :=
  fun _ _ => mode_bytes_length m

theorem EncodedLength.and (m : Mode) : EncodedLength.Statement (.and m) :=
  fun _ _ => mode_bytes_length m

theorem EncodedLength.eor (m : Mode) : EncodedLength.Statement (.eor m) :=
  fun _ _ => mode_bytes_length m

theorem EncodedLength.adc (m : Mode) : EncodedLength.Statement (.adc m) :=
  fun _ _ => mode_bytes_length m

theorem EncodedLength.sta (m : Mode) : EncodedLength.Statement (.sta m) :=
  fun _ _ => mode_bytes_length m

theorem EncodedLength.lda (m : Mode) : EncodedLength.Statement (.lda m) :=
  fun _ _ => mode_bytes_length m

theorem EncodedLength.cmp (m : Mode) : EncodedLength.Statement (.cmp m) :=
  fun _ _ => mode_bytes_length m

theorem EncodedLength.sbc (m : Mode) : EncodedLength.Statement (.sbc m) :=
  fun _ _ => mode_bytes_length m

theorem EncodedLength.asl (o : ShiftOperand) : EncodedLength.Statement (.asl o) :=
  fun _ _ => encodeShift_length _ o

theorem EncodedLength.rol (o : ShiftOperand) : EncodedLength.Statement (.rol o) :=
  fun _ _ => encodeShift_length _ o

theorem EncodedLength.lsr (o : ShiftOperand) : EncodedLength.Statement (.lsr o) :=
  fun _ _ => encodeShift_length _ o

theorem EncodedLength.ror (o : ShiftOperand) : EncodedLength.Statement (.ror o) :=
  fun _ _ => encodeShift_length _ o

theorem EncodedLength.dec (m : Mode) : EncodedLength.Statement (.dec m) :=
  fun _ _ => mode_bytes_length m

theorem EncodedLength.inc (m : Mode) : EncodedLength.Statement (.inc m) :=
  fun _ _ => mode_bytes_length m

theorem EncodedLength.tax : EncodedLength.Statement .tax :=
  fun _ _ => rfl

theorem EncodedLength.tay : EncodedLength.Statement .tay :=
  fun _ _ => rfl

theorem EncodedLength.txa : EncodedLength.Statement .txa :=
  fun _ _ => rfl

theorem EncodedLength.tya : EncodedLength.Statement .tya :=
  fun _ _ => rfl

theorem EncodedLength.tsx : EncodedLength.Statement .tsx :=
  fun _ _ => rfl

theorem EncodedLength.txs : EncodedLength.Statement .txs :=
  fun _ _ => rfl

theorem EncodedLength.bpl (off : Byte) : EncodedLength.Statement (.bpl off) :=
  fun _ _ => rfl

theorem EncodedLength.bmi (off : Byte) : EncodedLength.Statement (.bmi off) :=
  fun _ _ => rfl

theorem EncodedLength.bvc (off : Byte) : EncodedLength.Statement (.bvc off) :=
  fun _ _ => rfl

theorem EncodedLength.bvs (off : Byte) : EncodedLength.Statement (.bvs off) :=
  fun _ _ => rfl

theorem EncodedLength.bcc (off : Byte) : EncodedLength.Statement (.bcc off) :=
  fun _ _ => rfl

theorem EncodedLength.bcs (off : Byte) : EncodedLength.Statement (.bcs off) :=
  fun _ _ => rfl

theorem EncodedLength.bne (off : Byte) : EncodedLength.Statement (.bne off) :=
  fun _ _ => rfl

theorem EncodedLength.beq (off : Byte) : EncodedLength.Statement (.beq off) :=
  fun _ _ => rfl

theorem EncodedLength.clc : EncodedLength.Statement .clc :=
  fun _ _ => rfl

theorem EncodedLength.sec : EncodedLength.Statement .sec :=
  fun _ _ => rfl

theorem EncodedLength.cli : EncodedLength.Statement .cli :=
  fun _ _ => rfl

theorem EncodedLength.sei : EncodedLength.Statement .sei :=
  fun _ _ => rfl

theorem EncodedLength.clv : EncodedLength.Statement .clv :=
  fun _ _ => rfl

theorem EncodedLength.cld : EncodedLength.Statement .cld :=
  fun _ _ => rfl

theorem EncodedLength.sed : EncodedLength.Statement .sed :=
  fun _ _ => rfl

theorem EncodedLength.bit (m : Mode) : EncodedLength.Statement (.bit m) :=
  fun _ _ => mode_bytes_length m

theorem EncodedLength.hlt : EncodedLength.Statement .hlt := by
  intro halt h
  cases halt with
  | none => simp [Instr.wfFor] at h
  | some b => rfl

theorem EncodedLength.illegalOpcode (b : Byte) : EncodedLength.Statement (.illegalOpcode b) :=
  fun _ _ => rfl

theorem EncodedLength.illegalMode (b : Byte) : EncodedLength.Statement (.illegalMode b) :=
  fun _ _ => rfl

end Sys2Proof.Laws
end

