-- ==== Sys2Proof/Tests/Slice0.lean ====
section
/-! SUPPORT. The model's own tests. Expected results are the tables and worked examples of
`95_test_vectors.md` (its section is named) or the encoding and opcode lists of `30_encoding.md`;
none was produced by the model. At the end, a witness for every obligation that has hypotheses. -/

namespace Sys2Proof.Tests

open Sys2Proof.Machine Sys2Proof.Spec

/-! ## Helpers -/

/-- A memory with the given bytes. -/
def cells (l : List (Word × Byte)) : Memory := l.foldl (fun m c => m.write c.1 c.2) []

/-- Bytes from an address on. -/
def bytesAt (w : Word) (l : List Byte) : List (Word × Byte) :=
  l.zipIdx.map fun b => (w + BitVec.ofNat 16 b.2, b.1)

/-- A running core with `SP = 0xFD`, `PC` at `pc`, the bytes `code` there and the cells `data`. -/
def start (a x y p : Byte) (pc : Word) (code : List Byte) (data : List (Word × Byte)) : State :=
  { a := a, x := x, y := y, sp := 0xFD, pc := pc, p := p, halted := false,
    mem := cells (bytesAt pc code ++ data) }

/-- One call from `s` completes in `n` cycles and leaves these registers. -/
def leaves (s : State) (n : Nat) (a x y p : Byte) (pc : Word) : Bool :=
  match call Config.params s with
  | (t, .ok cycles) =>
    cycles == n && t.a == a && t.x == x && t.y == y && t.p == p && t.pc == pc
  | _ => false

/-- The same, and the byte at `w` is `v` after it. -/
def stores (s : State) (n : Nat) (p : Byte) (pc w : Word) (v : Byte) : Bool :=
  leaves s n s.a s.x s.y p pc && (call Config.params s).1.read w == v

/-- The start state of the tests of one value in `A`. -/
def withA (a p : Byte) (code : List Byte) : State := start a 0 0 p 0x0200 code []

/-! ## Ill-formed instructions are refused (`30_encoding.md` R84, R85; `00_scope.md` R7) -/

theorem test_wf_sta_immediate : Instr.wf (.sta (.imm 0)) = false := by decide
theorem test_wf_asl_mode : Instr.wf (.asl (.mem (.imm 0))) = false := by decide
theorem test_wf_rol_mode : Instr.wf (.rol (.mem (.indX 0))) = false := by decide
theorem test_wf_lsr_mode : Instr.wf (.lsr (.mem (.indY 0))) = false := by decide
theorem test_wf_ror_mode : Instr.wf (.ror (.mem (.absY 0))) = false := by decide
theorem test_wf_dec_mode : Instr.wf (.dec (.absY 0)) = false := by decide
theorem test_wf_inc_mode : Instr.wf (.inc (.imm 0)) = false := by decide
theorem test_wf_bit_mode : Instr.wf (.bit (.zpX 0)) = false := by decide
theorem test_wf_hlt_without_opcode : Instr.wfFor none .hlt = false := by decide
theorem test_wf_hlt_on_assigned_byte : Instr.wfFor (some 0xA9) .hlt = false := by decide
theorem test_wf_illegalOpcode_assigned : Instr.wf (.illegalOpcode 0xA9) = false := by decide
theorem test_wf_illegalOpcode_bad_mode : Instr.wf (.illegalOpcode 0x89) = false := by decide
theorem test_wf_illegalOpcode_halt : Instr.wf (.illegalOpcode 0x00) = false := by decide
theorem test_wf_illegalMode_assigned : Instr.wf (.illegalMode 0x8D) = false := by decide
theorem test_wf_illegalMode_bad_opcode : Instr.wf (.illegalMode 0xFF) = false := by decide
theorem test_wf_illegalMode_halt : Instr.wfFor (some 0xEA) (.illegalMode 0xEA) = false := by decide
theorem test_params_valid : Config.params.valid = true := by decide
theorem test_params_assigned_halt :
    Params.valid { haltOpcode := some 0xA9, spReset := 0, haltCycles := 0 } = false := by decide

/-! ## Decoding of words written out as `aaa_bbb_cc` from `30_encoding.md` R75, R76, R79, R83 -/

theorem test_decode_group1 :
    decode [0b00000001, 0x20] = .ok (.ora (.indX 0x20), []) ∧
    decode [0b00100101, 0x20] = .ok (.and (.zp 0x20), []) ∧
    decode [0b01001001, 0x20] = .ok (.eor (.imm 0x20), []) ∧
    decode [0b01101101, 0x34, 0x12] = .ok (.adc (.abs 0x1234), []) ∧
    decode [0b10010001, 0x20] = .ok (.sta (.indY 0x20), []) ∧
    decode [0b10110101, 0x20] = .ok (.lda (.zpX 0x20), []) ∧
    decode [0b11011001, 0x34, 0x12] = .ok (.cmp (.absY 0x1234), []) ∧
    decode [0b11111101, 0x34, 0x12] = .ok (.sbc (.absX 0x1234), []) :=
  ⟨rfl, rfl, rfl, rfl, rfl, rfl, rfl, rfl⟩

theorem test_decode_group2_memory :
    decode [0b00000110, 0x10] = .ok (.asl (.mem (.zp 0x10)), []) ∧
    decode [0b00101110, 0x34, 0x12] = .ok (.rol (.mem (.abs 0x1234)), []) ∧
    decode [0b01010110, 0x10] = .ok (.lsr (.mem (.zpX 0x10)), []) ∧
    decode [0b01111110, 0x34, 0x12] = .ok (.ror (.mem (.absX 0x1234)), []) ∧
    decode [0b11000110, 0x10] = .ok (.dec (.zp 0x10), []) ∧
    decode [0b11111110, 0x34, 0x12] = .ok (.inc (.absX 0x1234), []) :=
  ⟨rfl, rfl, rfl, rfl, rfl, rfl⟩

theorem test_decode_accumulator :
    decode [0b00001010] = .ok (.asl .acc, []) ∧ decode [0b00101010] = .ok (.rol .acc, []) ∧
    decode [0b01001010] = .ok (.lsr .acc, []) ∧ decode [0b01101010] = .ok (.ror .acc, []) :=
  ⟨rfl, rfl, rfl, rfl⟩

theorem test_decode_transfers :
    decode [0b10101010] = .ok (.tax, []) ∧ decode [0b10101000] = .ok (.tay, []) ∧
    decode [0b10001010] = .ok (.txa, []) ∧ decode [0b10011000] = .ok (.tya, []) ∧
    decode [0b10111010] = .ok (.tsx, []) ∧ decode [0b10011010] = .ok (.txs, []) :=
  ⟨rfl, rfl, rfl, rfl, rfl, rfl⟩

theorem test_decode_branches :
    decode [0b00010000, 0x05] = .ok (.bpl 0x05, []) ∧
    decode [0b00110000, 0x05] = .ok (.bmi 0x05, []) ∧
    decode [0b01010000, 0x05] = .ok (.bvc 0x05, []) ∧
    decode [0b01110000, 0x05] = .ok (.bvs 0x05, []) ∧
    decode [0b10010000, 0x05] = .ok (.bcc 0x05, []) ∧
    decode [0b10110000, 0x05] = .ok (.bcs 0x05, []) ∧
    decode [0b11010000, 0x05] = .ok (.bne 0x05, []) ∧
    decode [0b11110000, 0x05] = .ok (.beq 0x05, []) :=
  ⟨rfl, rfl, rfl, rfl, rfl, rfl, rfl, rfl⟩

theorem test_decode_flag_operations :
    decode [0b00011000] = .ok (.clc, []) ∧ decode [0b00111000] = .ok (.sec, []) ∧
    decode [0b01011000] = .ok (.cli, []) ∧ decode [0b01111000] = .ok (.sei, []) ∧
    decode [0b10111000] = .ok (.clv, []) ∧ decode [0b11011000] = .ok (.cld, []) ∧
    decode [0b11111000] = .ok (.sed, []) :=
  ⟨rfl, rfl, rfl, rfl, rfl, rfl, rfl⟩

theorem test_decode_bit_hlt_illegal :
    decode [0b00100100, 0x10] = .ok (.bit (.zp 0x10), []) ∧
    decode [0b00101100, 0x34, 0x12] = .ok (.bit (.abs 0x1234), []) ∧
    decode [0b00000000] = .ok (.hlt, []) ∧
    decode [0b01001100, 0x00, 0x03] = .ok (.illegalOpcode 0x4C, [0x00, 0x03]) ∧
    decode [0b11101010] = .ok (.illegalMode 0xEA, []) :=
  ⟨rfl, rfl, rfl, rfl, rfl⟩

theorem test_decode_too_short :
    decode [] = .error .noBytes ∧ decode [0xAD, 0x34] = .error (.truncated 0xAD) := ⟨rfl, rfl⟩

theorem test_encode_bytes :
    encode (.sta (.absX 0x1234)) = [0x9D, 0x34, 0x12] ∧ encode (.bne 0xF9) = [0xD0, 0xF9] ∧
    encode .hlt = [0x00] := by decide

theorem test_decodeTableWord :
    decodeTableWord 24 0x1234AD = some (.lda (.abs 0x1234)) ∧
    decodeTableWord 8 0xAD = some (.lda (.abs 0)) ∧
    decodeTableWord 16 0xF9D0 = some (.bne 0xF9) := by decide

/-- A word placed at `PC` is what the next step runs, on a halted core too. -/
theorem test_withFetchWord :
    (call Config.params ((State.reset.setHalted true).withFetchWord 16 0x44A9)).1.a = 0x44 := by
  decide

/-! ## The resolver (`95_test_vectors.md` 4.1) -/

/-- A core with these index registers and cells. -/
def indexes (x y : Byte) (data : List (Word × Byte)) : State := start 0 x y 0 0x0200 [] data

theorem test_resolve_indX :
    resolve (.indX 0xFF) (indexes 0x01 0 [(0x0000, 0x34), (0x0001, 0x12)]) =
      { ea := 0x1234, extra := 0, len := 2 } ∧
    resolve (.indX 0xFF) (indexes 0 0 [(0x0000, 0x56), (0x00FF, 0x78)]) =
      { ea := 0x5678, extra := 0, len := 2 } := by decide

theorem test_resolve_indY :
    resolve (.indY 0x10) (indexes 0 0x20 [(0x0010, 0xF0), (0x0011, 0x12)]) =
      { ea := 0x1310, extra := 1, len := 2 } ∧
    resolve (.indY 0x10) (indexes 0 0x0F [(0x0010, 0xF0), (0x0011, 0x12)]) =
      { ea := 0x12FF, extra := 0, len := 2 } ∧
    resolve (.indY 0xFF) (indexes 0 0x01 [(0x0000, 0x40)]) =
      { ea := 0x4001, extra := 0, len := 2 } ∧
    resolve (.indY 0x10) (indexes 0 0x01 [(0x0010, 0xFF), (0x0011, 0xFF)]) =
      { ea := 0x0000, extra := 1, len := 2 } := by decide

theorem test_resolve_direct :
    resolve (.zp 0x80) (indexes 0 0 []) = { ea := 0x0080, extra := 0, len := 2 } ∧
    resolve (.imm 0x44) (indexes 0 0 []) = { ea := 0x0201, extra := 0, len := 2 } ∧
    resolve (.abs 0x1234) (indexes 0 0 []) = { ea := 0x1234, extra := 0, len := 3 } := by decide

theorem test_resolve_indexed :
    resolve (.zpX 0xF0) (indexes 0x20 0 []) = { ea := 0x0010, extra := 0, len := 2 } ∧
    resolve (.absY 0x1234) (indexes 0 0x01 []) = { ea := 0x1235, extra := 0, len := 3 } ∧
    resolve (.absY 0xFFF0) (indexes 0 0x20 []) = { ea := 0x0010, extra := 1, len := 3 } ∧
    resolve (.absX 0x00FF) (indexes 0 0 []) = { ea := 0x00FF, extra := 0, len := 3 } ∧
    resolve (.absX 0x00FF) (indexes 0x01 0 []) = { ea := 0x0100, extra := 1, len := 3 } ∧
    resolve (.absX 0x2001) (indexes 0xFF 0 []) = { ea := 0x2100, extra := 1, len := 3 } := by
  decide

theorem test_abs_at_the_top_of_memory :
    leaves (start 0 0 0 0 0xFFFE [0xAD, 0x00, 0x03] [(0x0300, 0x6B)]) 4 0x6B 0 0 0x00 0x0001 =
      true := by decide

theorem test_immediate_at_the_top_of_memory :
    leaves (start 0 0 0 0 0xFFFF [0xA9, 0x5A] []) 2 0x5A 0 0 0x00 0x0001 = true := by decide

theorem test_accesses_indY :
    stepAccesses Config.params (start 0 0 0x20 0 0x0200 [0xB1, 0x10] [(0x0010, 0xF0), (0x0011, 0x12)])
      = [.read 0x0200, .read 0x0201, .read 0x0202, .read 0x0010, .read 0x0011, .read 0x1310] := by
  decide

theorem test_accesses_immediate :
    stepAccesses Config.params (withA 0 0 [0xA9, 0x44]) =
      [.read 0x0200, .read 0x0201, .read 0x0202, .read 0x0201] := by decide

theorem test_accesses_modify :
    stepAccesses Config.params (start 0 0 0 0 0x0200 [0x06, 0x10] [(0x0010, 0x81)]) =
      [.read 0x0200, .read 0x0201, .read 0x0202, .read 0x0010, .write 0x0010 0x02] := by decide

theorem test_accesses_accumulator_branch_halted :
    stepAccesses Config.params (withA 1 0 [0x4A]) = [.read 0x0200] ∧
    stepAccesses Config.params (withA 0 0 [0xD0, 0x05]) = [.read 0x0200, .read 0x0201] ∧
    stepAccesses Config.params ((withA 0 0 [0xA9]).setHalted true) = [] := by decide

/-! ## Group 1 (`95_test_vectors.md` 3 and 4.2) -/

theorem test_ora_negative :
    leaves (withA 0x0F 0x00 [0x09, 0xF0]) 2 0xFF 0 0 0x80 0x0202 = true := by decide
theorem test_ora_keeps_c_v :
    leaves (withA 0x00 0xC1 [0x09, 0x00]) 2 0x00 0 0 0x43 0x0202 = true := by decide
theorem test_and_zero :
    leaves (withA 0xF0 0x00 [0x29, 0x0F]) 2 0x00 0 0 0x02 0x0202 = true := by decide
theorem test_and_absolute :
    leaves (start 0x3C 0 0 0 0x0200 [0x2D, 0x34, 0x12] [(0x1234, 0x0F)]) 4 0x0C 0 0 0 0x0203 =
      true := by decide
theorem test_eor_keeps_c :
    leaves (withA 0x0F 0x01 [0x49, 0xFF]) 2 0xF0 0 0 0x81 0x0202 = true := by decide
theorem test_eor_indexed :
    leaves (start 0xAA 2 0 0 0x0200 [0x55, 0x10] [(0x0012, 0x55)]) 4 0xFF 2 0 0x80 0x0202 =
      true := by decide
theorem test_lda_zero :
    leaves (withA 0x80 0x80 [0xA9, 0x00]) 2 0x00 0 0 0x02 0x0202 = true := by decide
theorem test_lda_keeps_c_v :
    leaves (withA 0x00 0xC3 [0xA9, 0x7F]) 2 0x7F 0 0 0x41 0x0202 = true := by decide
theorem test_sta_absX :
    stores (start 0x42 1 0 0 0x0200 [0x9D, 0xFF, 0x00] []) 5 0 0x0203 0x0100 0x42 = true := by
  decide
theorem test_sta_indY :
    stores (start 0x99 0 0 0 0x0200 [0x91, 0x10] [(0x0010, 0x00), (0x0011, 0x30)])
      6 0 0x0202 0x3000 0x99 = true := by decide
theorem test_cmp_equal :
    leaves (withA 0x05 0x00 [0xC9, 0x05]) 2 0x05 0 0 0x03 0x0202 = true := by decide
theorem test_cmp_borrow_keeps_v :
    leaves (withA 0x7F 0x40 [0xC9, 0x80]) 2 0x7F 0 0 0xC0 0x0202 = true := by decide
theorem test_adc_carry_in_overflows :
    leaves (withA 0x7F 0x01 [0x69, 0x00]) 2 0x80 0 0 0xC0 0x0202 = true := by decide
theorem test_adc_is_binary :
    leaves (withA 0x09 0x08 [0x69, 0x09]) 2 0x12 0 0 0x08 0x0202 = true := by decide
theorem test_sbc_overflow :
    leaves (withA 0x80 0x00 [0xE9, 0x00]) 2 0x7F 0 0 0x41 0x0202 = true := by decide
theorem test_sbc_borrow :
    leaves (withA 0x05 0x01 [0xE9, 0x06]) 2 0xFF 0 0 0x80 0x0202 = true := by decide

/-! ## Group 2 (`95_test_vectors.md` 4.3 and 4.4) -/

theorem test_asl_keeps_the_other_flags :
    leaves (withA 0x40 0x4C [0x0A]) 2 0x80 0 0 0xCC 0x0201 = true := by decide
theorem test_asl_memory :
    stores (start 0 1 0 0 0x0200 [0x1E, 0xFF, 0x00] [(0x0100, 0x81)]) 7 0x01 0x0203 0x0100 0x02 =
      true := by decide
theorem test_rol_carry_in :
    leaves (withA 0x80 0x01 [0x2A]) 2 0x01 0 0 0x01 0x0201 = true := by decide
theorem test_rol_memory :
    stores (start 0 0 0 0x01 0x0200 [0x26, 0x10] [(0x0010, 0x80)]) 5 0x01 0x0202 0x0010 0x01 =
      true := by decide
theorem test_lsr_clears_n :
    leaves (withA 0x01 0x80 [0x4A]) 2 0x00 0 0 0x03 0x0201 = true := by decide
theorem test_lsr_memory :
    stores (start 0 0 0 0 0x0200 [0x4E, 0x34, 0x12] [(0x1234, 0x03)]) 6 0x01 0x0203 0x1234 0x01 =
      true := by decide
theorem test_ror_carry_in :
    leaves (withA 0x01 0x01 [0x6A]) 2 0x80 0 0 0x81 0x0201 = true := by decide
theorem test_ror_memory :
    stores (start 0 0x20 0 0 0x0200 [0x76, 0xF0] [(0x0010, 0x01)]) 6 0x03 0x0202 0x0010 0x00 =
      true := by decide
theorem test_dec_wraps :
    stores (start 0 0 0 0 0x0200 [0xC6, 0x10] [(0x0010, 0x00)]) 5 0x80 0x0202 0x0010 0xFF =
      true := by decide
theorem test_dec_keeps_c_v :
    stores (start 0 0 0 0x41 0x0200 [0xC6, 0x10] [(0x0010, 0x80)]) 5 0x41 0x0202 0x0010 0x7F =
      true := by decide
theorem test_inc_wraps :
    stores (start 0 0 0 0 0x0200 [0xE6, 0x10] [(0x0010, 0xFF)]) 5 0x02 0x0202 0x0010 0x00 =
      true := by decide
theorem test_inc_absX :
    stores (start 0 0xFF 0 0 0x0200 [0xFE, 0x34, 0x12] [(0x1333, 0x00)]) 7 0 0x0203 0x1333 0x01 =
      true := by decide

theorem test_tax :
    leaves (start 0x80 0 0x7F 0 0x0200 [0xAA] []) 2 0x80 0x80 0x7F 0x80 0x0201 = true := by decide
theorem test_tax_zero :
    leaves (start 0 0x80 0 0x81 0x0200 [0xAA] []) 2 0 0 0 0x03 0x0201 = true := by decide
theorem test_tay :
    leaves (start 0x80 0 0x7F 0 0x0200 [0xA8] []) 2 0x80 0 0x80 0x80 0x0201 = true := by decide
theorem test_txa :
    leaves (start 0x80 0 0x7F 0 0x0200 [0x8A] []) 2 0 0 0x7F 0x02 0x0201 = true := by decide
theorem test_tya :
    leaves (start 0x80 0 0x7F 0 0x0200 [0x98] []) 2 0x7F 0 0x7F 0 0x0201 = true := by decide
theorem test_tsx :
    leaves (start 0x80 0 0x7F 0 0x0200 [0xBA] []) 2 0x80 0xFD 0x7F 0x80 0x0201 = true := by decide
theorem test_txs_no_flags :
    leaves (start 0 0x80 0 0x02 0x0200 [0x9A] []) 2 0 0x80 0 0x02 0x0201 = true ∧
    (call Config.params (start 0 0x80 0 0x02 0x0200 [0x9A] [])).1.sp = 0x80 := by decide

/-! ## Group 0 (`95_test_vectors.md` 4.5 and 4.6) -/

theorem test_clear_flags :
    leaves (withA 0 0xFF [0x18]) 2 0 0 0 0xFE 0x0201 = true ∧
    leaves (withA 0 0xFF [0x58]) 2 0 0 0 0xFB 0x0201 = true ∧
    leaves (withA 0 0xFF [0xB8]) 2 0 0 0 0xBF 0x0201 = true ∧
    leaves (withA 0 0xFF [0xD8]) 2 0 0 0 0xF7 0x0201 = true := by decide
theorem test_set_flags :
    leaves (withA 0 0x00 [0x38]) 2 0 0 0 0x01 0x0201 = true ∧
    leaves (withA 0 0x00 [0x78]) 2 0 0 0 0x04 0x0201 = true ∧
    leaves (withA 0 0x00 [0xF8]) 2 0 0 0 0x08 0x0201 = true := by decide

theorem test_bit_zp :
    leaves (start 0xAA 0 0 0x01 0x0200 [0x24, 0x10] [(0x0010, 0x55)]) 3 0xAA 0 0 0x43 0x0202 =
      true := by decide
theorem test_bit_abs :
    leaves (start 0xFF 0 0 0xC0 0x0200 [0x2C, 0x34, 0x12] []) 4 0xFF 0 0 0x02 0x0203 = true := by
  decide

theorem test_bpl :
    leaves (withA 0 0x00 [0x10, 0x7F]) 3 0 0 0 0x00 0x0281 = true ∧
    leaves (withA 0 0x80 [0x10, 0x7F]) 2 0 0 0 0x80 0x0202 = true := by decide
theorem test_bmi :
    leaves (withA 0 0x80 [0x30, 0x80]) 4 0 0 0 0x80 0x0182 = true ∧
    leaves (withA 0 0x7F [0x30, 0x80]) 2 0 0 0 0x7F 0x0202 = true := by decide
theorem test_bvc :
    leaves (start 0 0 0 0x00 0x0000 [0x50, 0x80] []) 4 0 0 0 0x00 0xFF82 = true ∧
    leaves (start 0 0 0 0x40 0x0000 [0x50, 0x80] []) 2 0 0 0 0x40 0x0002 = true := by decide
theorem test_bvs :
    leaves (start 0 0 0 0x40 0xFFF0 [0x70, 0x20] []) 4 0 0 0 0x40 0x0012 = true ∧
    leaves (start 0 0 0 0xBF 0xFFF0 [0x70, 0x20] []) 2 0 0 0 0xBF 0xFFF2 = true := by decide
theorem test_bcc :
    leaves (start 0 0 0 0x00 0x0300 [0x90, 0xFC] []) 4 0 0 0 0x00 0x02FE = true ∧
    leaves (start 0 0 0 0x01 0x0300 [0x90, 0xFC] []) 2 0 0 0 0x01 0x0302 = true := by decide
theorem test_bcs :
    leaves (start 0 0 0 0x01 0xFFFE [0xB0, 0x10] []) 3 0 0 0 0x01 0x0010 = true ∧
    leaves (start 0 0 0 0x00 0xFFFE [0xB0, 0x10] []) 2 0 0 0 0x00 0x0000 = true := by decide
theorem test_bne :
    leaves (start 0 0 0 0xFD 0x02FF [0xD0, 0xFD] []) 4 0 0 0 0xFD 0x02FE = true ∧
    leaves (withA 0 0x02 [0xD0, 0x05]) 2 0 0 0 0x02 0x0202 = true := by decide
theorem test_beq :
    leaves (start 0 0 0 0x02 0x02F0 [0xF0, 0x20] []) 4 0 0 0 0x02 0x0312 = true ∧
    leaves (start 0 0 0 0x00 0x02F0 [0xF0, 0x20] []) 2 0 0 0 0x00 0x02F2 = true := by decide

/-! ## The step engine (`95_test_vectors.md` 4.7) -/

/-- The start state of section 4.7. -/
def engine (code : List Byte) : State := start 0x11 0x22 0x33 0xC3 0x0200 code []

theorem test_hlt :
    leaves (engine [0x00]) 2 0x11 0x22 0x33 0xC3 0x0201 = true ∧
    (call Config.params (engine [0x00])).1.halted = true := by decide
theorem test_illegal_opcode :
    call Config.params (engine [0xFF, 0x12, 0x34]) =
      (engine [0xFF, 0x12, 0x34], .err .illegalOpcode) ∧
    call Config.params (engine [0xA2, 0x05]) = (engine [0xA2, 0x05], .err .illegalOpcode) := by
  decide
theorem test_illegal_mode :
    call Config.params (engine [0x89, 0x05]) =
      (engine [0x89, 0x05], .err .illegalAddressingMode) ∧
    call Config.params (engine [0xEA]) = (engine [0xEA], .err .illegalAddressingMode) := by
  decide
theorem test_halted_violation :
    call Config.params ((engine [0xFF]).setHalted true) =
      ((engine [0xFF]).setHalted true, .err .haltedViolation) := by decide

/-- The first step from reset with nothing placed reads 0x00 at address 0 and is an HLT. -/
theorem test_reset_first_step :
    call Config.params State.reset =
      ({ State.reset with pc := 0x0001, halted := true }, .ok 2) := by decide

/-! ## Memory and the host -/

theorem test_memory_canonical :
    cells [(0x0002, 7), (0x0001, 5)] = cells [(0x0001, 5), (0x0002, 7)] ∧
    cells [(0x0001, 5), (0x0001, 0)] = [] ∧ (cells [(0x0002, 7), (0x0001, 5)]).wf = true := by
  decide
theorem test_memory_not_canonical :
    Memory.wf [(2, 7), (1, 5)] = false ∧ Memory.wf [(1, 0)] = false ∧
    Memory.wf [(65536, 1)] = false := by decide
theorem test_host_skips_an_illegal_byte :
    leaves (hostAct Config.params (.writePc 0x0201) (engine [0xEA, 0xAA]))
      2 0x11 0x11 0x33 0x41 0x0202 = true := by decide

/-! ## Witnesses: states and operands that meet the hypotheses of the obligations -/

theorem witness_DecodeOfEncodeIsTheInstruction :
    Instr.wfFor (some 0x00) .hlt = true ∧ Instr.wfFor none (.lda (.indY 0xFF)) = true ∧
    Instr.wfFor none (.illegalOpcode 0x00) = true ∧
    Instr.wfFor (some 0x89) (.illegalMode 0xFA) = true ∧
    Instr.wfFor (some 0x89) .hlt = true := by decide

theorem witness_EncodeOfDecodeIsTheBytes :
    decodeFor none [0x91, 0xFF, 0x01] = .ok (.sta (.indY 0xFF), [0x01]) ∧
    decodeFor (some 0xFF) [0xFF] = .ok (.hlt, []) := ⟨rfl, rfl⟩

theorem witness_StepRunsTheDecodedInstruction :
    (withA 1 0 [0x0A]).halted = false ∧
    decodeFor Config.params.haltOpcode
      [(withA 1 0 [0x0A]).read 0x0200, (withA 1 0 [0x0A]).read 0x0201,
        (withA 1 0 [0x0A]).read 0x0202] = .ok (.asl .acc, [0x00, 0x00]) := ⟨rfl, rfl⟩

theorem witness_HaltedViolationExactlyWhileHalted :
    (State.reset.setHalted true).halted = true := rfl

/-- Both lists, at their least and greatest bytes, and a byte of group 3. -/
theorem witness_illegal_bytes :
    isBadOpcode 0x03 = true ∧ isBadOpcode 0xFF = true ∧ isBadOpcode 0x04 = true ∧
    isBadMode 0x02 = true ∧ isBadMode 0xFA = true ∧
    Config.params.haltOpcode ≠ some 0x03 ∧ Config.params.haltOpcode ≠ some 0x02 ∧
    (0x03 : Byte).toNat % 4 = 3 ∧ (0xFF : Byte).toNat % 4 = 3 := by decide

theorem witness_StepCompletesOnAssignedBytes :
    (withA 0 0 [0xFE]).halted = false ∧
    isUnassigned ((withA 0 0 [0xFE]).read 0x0200) = false ∧
    Config.params.haltOpcode = some ((withA 0 0 [0x00]).read 0x0200) := by decide

theorem witness_WellFormedInstructionsComplete :
    Instr.wfFor none (.inc (.absX 0xFFFF)) = true ∧ Instr.wfFor (some 0x00) .hlt = true := by
  decide

theorem witness_UnsupportedPairingsRaise :
    (Mode.imm 0).modifiable = false ∧ (Mode.indX 0).modifiable = false ∧
    (Mode.indY 0).modifiable = false ∧ (Mode.absY 0).modifiable = false ∧
    (Mode.imm 0).bitTestable = false ∧ (Mode.absX 0).bitTestable = false := by decide

/-- The clauses of `CallReturnsOkOrAnErrorWithTheStateUnchanged`: HLT with another HALT_CYCLES, the
least and the greatest count, an error. -/
theorem witness_CallReturnsOkOrAnErrorWithTheStateUnchanged :
    (call { Config.params with haltCycles := 9 } (engine [0x00])).2 = .ok 9 ∧
    (call Config.params (engine [0x18])).2 = .ok 2 ∧
    (call Config.params (engine [0x1E, 0x00, 0x10])).2 = .ok 7 ∧
    (call Config.params (engine [0xFF])).2 = .err .illegalOpcode := by decide

theorem witness_StepKeepsMemoryCanonical :
    (engine [0x8D, 0x34, 0x12]).mem.wf = true ∧
    ∃ t, stepWith Config.params (engine [0x8D, 0x34, 0x12]) = .next t :=
  ⟨by decide, _, rfl⟩

theorem witness_CanonicalMemoriesWithTheSameBytesAreEqual :
    (cells [(0x0002, 7), (0xFFFF, 5)]).wf = true ∧
    (cells [(0xFFFF, 5), (0x0002, 9), (0x0002, 7)]).wf = true ∧
    (∀ w, (cells [(0x0002, 7), (0xFFFF, 5)]).read w =
      (cells [(0xFFFF, 5), (0x0002, 9), (0x0002, 7)]).read w) :=
  ⟨by decide, by decide, fun _ => rfl⟩

theorem witness_LoadAfterStoreGivesTheStoredByte :
    ∃ t u, exec (.sta (.absX 0xFFFF)) (indexes 0x01 0 []) = .next t ∧
      exec (.lda (.abs (resolve (.absX 0xFFFF) (indexes 0x01 0 [])).ea)) t = .next u :=
  ⟨_, _, rfl, rfl⟩

/-- The stored-to address wraps to 0; STA, and INC in a zero-page mode. -/
theorem witness_StoredByteIsTheNextOpcode :
    (∃ t, exec (.sta (.abs 0x0000)) (start 0xE8 0 0 0 0xFFFD [] []) = .next t) ∧
    storeAddress (.sta (.abs 0x0000)) (start 0xE8 0 0 0 0xFFFD [] []) =
      some ((start 0xE8 0 0 0 0xFFFD [] []).pc + BitVec.ofNat 16 3) ∧
    storedByte (.sta (.abs 0x0000)) (start 0xE8 0 0 0 0xFFFD [] []) = some 0xE8 ∧
    (start 0xE8 0 0 0 0xFFFD [] []).halted = false ∧
    (∃ t, exec (.inc (.zp 0x12)) (start 0 0 0 0 0x0010 [0xE6, 0x12, 0xE7] []) = .next t) ∧
    storeAddress (.inc (.zp 0x12)) (start 0 0 0 0 0x0010 [0xE6, 0x12, 0xE7] []) =
      some ((start 0 0 0 0 0x0010 [0xE6, 0x12, 0xE7] []).pc + BitVec.ofNat 16 2) ∧
    storedByte (.inc (.zp 0x12)) (start 0 0 0 0 0x0010 [0xE6, 0x12, 0xE7] []) = some 0xE8 :=
  ⟨⟨_, rfl⟩, by decide, by decide, by decide, ⟨_, rfl⟩, by decide, by decide⟩

/-- For `OnlyTheHaltOpcodeHalts`: a step that halts and one that does not. -/
theorem witness_OnlyTheHaltOpcodeHalts :
    (∃ t, stepWith Config.params State.reset = .next t ∧ t.halted = true) ∧
    (∃ t, stepWith Config.params (engine [0x18]) = .next t ∧ t.halted = false) :=
  ⟨⟨_, rfl, rfl⟩, ⟨_, rfl, rfl⟩⟩

/-- For the frame statements: next states of an instruction of each shape. -/
theorem witness_frames (s : State) :
    (∃ t, exec (.adc (.indX 0)) s = .next t) ∧ (∃ t, exec (.sta (.indY 0)) s = .next t) ∧
    (∃ t, exec (.ror (.mem (.absX 0))) s = .next t) ∧ (∃ t, exec (.ror .acc) s = .next t) ∧
    (∃ t, exec (.dec (.zpX 0)) s = .next t) ∧ (∃ t, exec (.bit (.abs 0)) s = .next t) ∧
    (∃ t, exec .txs s = .next t) ∧ (∃ t, exec .tsx s = .next t) ∧
    (∃ t, exec .tay s = .next t) ∧ (∃ t, exec .clv s = .next t) ∧ (∃ t, exec .hlt s = .next t) ∧
    writesA (.cmp (.zp 0)) = false ∧ Flag.c ∉ flagsWritten (.inc (.zp 0)) :=
  ⟨⟨_, rfl⟩, ⟨_, rfl⟩, ⟨_, rfl⟩, ⟨_, rfl⟩, ⟨_, rfl⟩, ⟨_, rfl⟩, ⟨_, rfl⟩, ⟨_, rfl⟩, ⟨_, rfl⟩,
    ⟨_, rfl⟩, ⟨_, rfl⟩, rfl, by decide⟩

/-- For `MemoryChangesOnlyAtTheStoreAddress`: the byte after the stored one, and a form that
stores nothing. -/
theorem witness_MemoryChangesOnlyAtTheStoreAddress (s : State) :
    storeAddress (.sta (.abs 0xFFFF)) s ≠ some 0x0000 ∧
    storeAddress (.lda (.abs 0xFFFF)) s ≠ some 0xFFFF :=
  ⟨fun h => absurd (show (0xFFFF : Word) = 0x0000 from Option.some.inj h) (by decide),
    fun h => nomatch h⟩

/-- For `PcAdvancesByTheLength`: a branch with offset 0x7F, one with 0x80, one not taken, and an
instruction that wraps. -/
theorem witness_PcAdvancesByTheLength :
    (∃ t, exec (.bpl 0x7F) (withA 0 0 []) = .next t ∧ t.pc = 0x0281) ∧
    (∃ t, exec (.bpl 0x80) (withA 0 0 []) = .next t ∧ t.pc = 0x0182) ∧
    (∃ t, exec (.bmi 0x80) (withA 0 0 []) = .next t ∧ t.pc = 0x0202) ∧
    (∃ t, exec (.lda (.abs 0)) (start 0 0 0 0 0xFFFD [] []) = .next t ∧ t.pc = 0x0000) :=
  ⟨⟨_, rfl, rfl⟩, ⟨_, rfl, rfl⟩, ⟨_, rfl, rfl⟩, ⟨_, rfl, rfl⟩⟩

theorem witness_OnlyTsxReadsSp : Instr.txs ≠ .tsx ∧ Instr.tax ≠ .tsx := by decide

theorem witness_InertFlagsAreReadByNothing :
    Flag.d ∈ [Flag.i, .d, .b, .u] ∧ Flag.d ∈ flagsWritten .sed ∧
    Flag.d ∉ flagsWritten (.adc (.imm 0)) := by decide

theorem witness_MemoryIsTheReplayOfTheAccesses :
    ∃ t, stepWith Config.params (engine [0xE6, 0x10]) = .next t := ⟨_, rfl⟩

/-- A memory that differs from the state's at every address but those read. -/
theorem witness_StepDependsOnlyOnTheBytesItReads :
    (∀ w, Reads (stepAccesses Config.params (engine [0xAA])) w →
      (cells [(0x0200, 0xAA), (0x0201, 0x55)]).read w = (engine [0xAA]).mem.read w) ∧
    cells [(0x0200, 0xAA), (0x0201, 0x55)] ≠ (engine [0xAA]).mem := by
  refine ⟨fun w h => ?_, by decide⟩
  have hw : w = 0x0200 := by
    have ha : stepAccesses Config.params (engine [0xAA]) = [.read 0x0200] := by decide
    rw [Reads, ha] at h
    simpa using h
  subst hw
  decide

theorem witness_StaResult :
    (Mode.indX 0xFF).storable = true ∧ (Mode.absX 0xFFFF).storable = true := by decide

/-- The least sum that overflows and the greatest that does not. -/
theorem witness_OverflowIsSignedOverflow :
    (∃ t, exec (.adc (.imm 0x01)) (withA 0x7F 0 []) = .next t ∧ t.flag .v = true) ∧
    (∃ t, exec (.adc (.imm 0x01)) (withA 0x7E 0 []) = .next t ∧ t.flag .v = false) ∧
    (∃ u, exec (.sbc (.imm 0x01)) (withA 0x80 1 []) = .next u ∧ u.flag .v = true) ∧
    (∃ u, exec (.sbc (.imm 0x01)) (withA 0x81 1 []) = .next u ∧ u.flag .v = false) :=
  ⟨⟨_, rfl, rfl⟩, ⟨_, rfl, rfl⟩, ⟨_, rfl, rfl⟩, ⟨_, rfl, rfl⟩⟩

theorem witness_AdcThenSbcRestoresA :
    ∃ t u, exec (.adc (.imm 0x80)) (withA 0x7F 1 []) = .next t ∧
      exec (.sbc (.imm 0x80)) (t.setFlag .c (!(withA 0x7F 1 []).flag .c)) = .next u :=
  ⟨_, _, rfl, rfl⟩

theorem witness_ChainedAdcAddsWords :
    ∃ t u, exec (.adc (.imm 0x20)) ((State.reset.setFlag .c false).setA 0xF0) = .next t ∧
      exec (.adc (.imm 0x12)) (t.setA 0x34) = .next u := ⟨_, _, rfl, rfl⟩

theorem witness_CmpShowsTheFlagsOfSbc :
    ∃ t u, exec (.cmp (.imm 0x06)) (withA 5 0 []) = .next t ∧
      exec (.sbc (.imm 0x06)) ((withA 5 0 []).setFlag .c true) = .next u := ⟨_, _, rfl, rfl⟩

/-- For the four shifts and rotates, DEC, INC and `CycleCounts`. -/
theorem witness_modifiable :
    (Mode.zp 0xFF).modifiable = true ∧ (Mode.abs 0xFFFF).modifiable = true ∧
    (Mode.zpX 0xFF).modifiable = true ∧ (Mode.absX 0xFFFF).modifiable = true := by decide

theorem witness_RorUndoesRol :
    ∃ t u, exec (.rol .acc) (withA 0x80 1 []) = .next t ∧ exec (.ror .acc) t = .next u :=
  ⟨_, _, rfl, rfl⟩

/-- For `BitResult` and `CycleCounts`. -/
theorem witness_bitTestable :
    (Mode.zp 0xFF).bitTestable = true ∧ (Mode.abs 0xFFFF).bitTestable = true := by decide

/-- For `ZeroPageAccessesStayInTheZeroPage`: a pointer at 0xFF. -/
theorem witness_ZeroPageAccessesStayInTheZeroPage (s : State) :
    Reads (resolverReads (.indY 0xFF) s) 0x0000 ∧ Reads (resolverReads (.indY 0xFF) s) 0x00FF :=
  ⟨.tail _ (.tail _ (.tail _ (.head _))), .tail _ (.tail _ (.head _))⟩

theorem witness_ImmediateOperandIsTheByteAfterTheOpcode :
    immediate (fetchInstr none (withA 0 0 [0x69, 0xFF])) = some 0xFF ∧
    immediate (fetchInstr none (start 0 0 0 0 0xFFFF [0xC9, 0x05] [])) = some 0x05 := by decide

/-- For `CycleCounts`: a taken branch to the last byte of the page and one to the next page. -/
theorem witness_CycleCounts :
    Mode.storable (.indY 0) = true ∧
    instrCycles 2 (.bpl 0x7F) (start 0 0 0 0 0x027E [] []) = 3 ∧
    instrCycles 2 (.bpl 0x7F) (start 0 0 0 0 0x027F [] []) = 4 ∧
    instrCycles 2 (.bmi 0x7F) (start 0 0 0 0 0x027F [] []) = 2 := by decide

/-- For `PageCrossIsACarryOutOfTheLowByte`: the sums 255 and 256. -/
theorem witness_PageCrossIsACarryOutOfTheLowByte :
    (resolve (.absX 0x00FF) (indexes 0x00 0 [])).extra = 0 ∧
    (resolve (.absX 0x00FF) (indexes 0x01 0 [])).extra = 1 ∧
    (resolve (.absY 0x12F0) (indexes 0 0x0F [])).extra = 0 ∧
    (resolve (.absY 0x12F0) (indexes 0 0x10 [])).extra = 1 := by decide

theorem witness_NormalEndOfARunIsFinal :
    ∃ t, runFor Config.params 2 (engine [0x18, 0x00]) = .halted t := ⟨_, rfl⟩

/-- Each of the eight branches with its condition met: the four on a set flag, the four on a clear
one. -/
theorem witness_BranchToItselfNeverEnds :
    (withA 0 0xC3 [0x30, 0xFE]).halted = false ∧
    (withA 0 0xC3 [0x30, 0xFE]).read 0x0201 = 0xFE ∧
    (∀ b ∈ [((0x30 : Byte), Flag.n), (0x70, .v), (0xB0, .c), (0xF0, .z)],
      (withA 0 0xC3 [b.1, 0xFE]).read 0x0200 = b.1 ∧
      (withA 0 0xC3 [b.1, 0xFE]).flag b.2 = true) ∧
    (∀ b ∈ [((0x10 : Byte), Flag.n), (0x50, .v), (0x90, .c), (0xD0, .z)],
      (withA 0 0x3C [b.1, 0xFE]).read 0x0200 = b.1 ∧
      (!(withA 0 0x3C [b.1, 0xFE]).flag b.2) = true) := by decide

theorem witness_StatusRegisterIsAPureAccessor :
    [Flag.c, .z, .i, .d, .b, .u, .v, .n][0]? = some .c ∧
    [Flag.c, .z, .i, .d, .b, .u, .v, .n][7]? = some .n := by decide

theorem witness_HostResetsAndResumes : ∃ t, exec .hlt (engine [0x00, 0x18]) = .next t := ⟨_, rfl⟩

end Sys2Proof.Tests
end

section
/-! SUPPORT. What each instruction does, said once: the shared operation its handler is a call of,
and a rule for each shared operation that gives what holds of the next state. A statement about the
next state of any instruction is then a case split over the instructions, each case rewritten by
these rules. -/

namespace Sys2Proof.Machine

/-! ## The handler of each instruction as a call of its shared operation -/

@[simp] theorem exec_ora (m : Mode) (s : State) :
    exec (.ora m) s = loadA m (s.a ||| operand m s) s := rfl
@[simp] theorem exec_and (m : Mode) (s : State) :
    exec (.and m) s = loadA m (s.a &&& operand m s) s := rfl
@[simp] theorem exec_eor (m : Mode) (s : State) :
    exec (.eor m) s = loadA m (s.a ^^^ operand m s) s := rfl
@[simp] theorem exec_lda (m : Mode) (s : State) :
    exec (.lda m) s = loadA m (operand m s) s := rfl
@[simp] theorem exec_adc (m : Mode) (s : State) :
    exec (.adc m) s = loadSum m (addWithCarry s.a (operand m s) (s.flag .c)) s := rfl
@[simp] theorem exec_sbc (m : Mode) (s : State) :
    exec (.sbc m) s = loadSum m (subWithCarry s.a (operand m s) (s.flag .c)) s := rfl
@[simp] theorem exec_sta (m : Mode) (s : State) : exec (.sta m) s = execSta m s := rfl
@[simp] theorem exec_cmp (m : Mode) (s : State) : exec (.cmp m) s = execCmp m s := rfl
@[simp] theorem exec_bit (m : Mode) (s : State) : exec (.bit m) s = execBit m s := rfl

@[simp] theorem exec_asl (o : ShiftOperand) (s : State) :
    exec (.asl o) s = shift shiftLeft o s := rfl
@[simp] theorem exec_rol (o : ShiftOperand) (s : State) :
    exec (.rol o) s = shift rotateLeft o s := rfl
@[simp] theorem exec_lsr (o : ShiftOperand) (s : State) :
    exec (.lsr o) s = shift shiftRight o s := rfl
@[simp] theorem exec_ror (o : ShiftOperand) (s : State) :
    exec (.ror o) s = shift rotateRight o s := rfl
@[simp] theorem exec_dec (m : Mode) (s : State) :
    exec (.dec m) s = modifyZN m (decrement (operand m s)) s := rfl
@[simp] theorem exec_inc (m : Mode) (s : State) :
    exec (.inc m) s = modifyZN m (increment (operand m s)) s := rfl

@[simp] theorem exec_tax (s : State) : exec .tax s = commit 1 ((s.setX s.a).setZN s.a) := rfl
@[simp] theorem exec_tay (s : State) : exec .tay s = commit 1 ((s.setY s.a).setZN s.a) := rfl
@[simp] theorem exec_txa (s : State) : exec .txa s = commit 1 ((s.setA s.x).setZN s.x) := rfl
@[simp] theorem exec_tya (s : State) : exec .tya s = commit 1 ((s.setA s.y).setZN s.y) := rfl
@[simp] theorem exec_tsx (s : State) : exec .tsx s = commit 1 ((s.setX s.sp).setZN s.sp) := rfl
@[simp] theorem exec_txs (s : State) : exec .txs s = commit 1 (s.setSp s.x) := rfl

@[simp] theorem exec_bpl (off : Byte) (s : State) :
    exec (.bpl off) s = branch (!s.flag .n) off s := rfl
@[simp] theorem exec_bmi (off : Byte) (s : State) :
    exec (.bmi off) s = branch (s.flag .n) off s := rfl
@[simp] theorem exec_bvc (off : Byte) (s : State) :
    exec (.bvc off) s = branch (!s.flag .v) off s := rfl
@[simp] theorem exec_bvs (off : Byte) (s : State) :
    exec (.bvs off) s = branch (s.flag .v) off s := rfl
@[simp] theorem exec_bcc (off : Byte) (s : State) :
    exec (.bcc off) s = branch (!s.flag .c) off s := rfl
@[simp] theorem exec_bcs (off : Byte) (s : State) :
    exec (.bcs off) s = branch (s.flag .c) off s := rfl
@[simp] theorem exec_bne (off : Byte) (s : State) :
    exec (.bne off) s = branch (!s.flag .z) off s := rfl
@[simp] theorem exec_beq (off : Byte) (s : State) :
    exec (.beq off) s = branch (s.flag .z) off s := rfl

@[simp] theorem exec_clc (s : State) : exec .clc s = flagOp .c false s := rfl
@[simp] theorem exec_sec (s : State) : exec .sec s = flagOp .c true s := rfl
@[simp] theorem exec_cli (s : State) : exec .cli s = flagOp .i false s := rfl
@[simp] theorem exec_sei (s : State) : exec .sei s = flagOp .i true s := rfl
@[simp] theorem exec_clv (s : State) : exec .clv s = flagOp .v false s := rfl
@[simp] theorem exec_cld (s : State) : exec .cld s = flagOp .d false s := rfl
@[simp] theorem exec_sed (s : State) : exec .sed s = flagOp .d true s := rfl

@[simp] theorem exec_hlt (s : State) : exec .hlt s = commit 1 (s.setHalted true) := rfl
@[simp] theorem exec_illegalOpcode (b : Byte) (s : State) :
    exec (.illegalOpcode b) s = .fault .illegalOpcode := rfl
@[simp] theorem exec_illegalMode (b : Byte) (s : State) :
    exec (.illegalMode b) s = .fault .illegalAddressingMode := rfl

/-! ## What holds after an outcome -/

/-- `P` holds of the next state, if the outcome has one. -/
def Yields (r : Result) (P : State → Prop) : Prop := ∀ t, r = .next t → P t

section
variable (m : Mode) (s : State) (P : State → Prop)

@[simp] theorem yields_next : Yields (.next s) P ↔ P s := by
  simp [Yields]

@[simp] theorem yields_fault (k : Fault) : Yields (.fault k) P := by
  simp [Yields]

@[simp] theorem yields_commit (len : Nat) :
    Yields (commit len s) P ↔ P (s.setPc (s.pc + BitVec.ofNat 16 len)) := by
  rw [commit_eq, yields_next]

@[simp] theorem yields_loadA (r : Byte) :
    Yields (loadA m r s) P ↔
      P (((s.setA r).setZN r).setPc (s.pc + BitVec.ofNat 16 m.length)) := by
  rw [loadA_eq, yields_next, resolve_len]

@[simp] theorem yields_loadSum (r : SumOut) :
    Yields (loadSum m r s) P ↔
      P (((((s.setFlag .c r.carry).setFlag .v r.overflow).setA r.value).setZN r.value).setPc
        (s.pc + BitVec.ofNat 16 m.length)) := by
  rw [loadSum_eq, yields_next, resolve_len]

@[simp] theorem yields_execCmp :
    Yields (execCmp m s) P ↔
      P (((s.setFlag .c (noBorrow s.a (operand m s))).setZN
        (difference s.a (operand m s))).setPc (s.pc + BitVec.ofNat 16 m.length)) := by
  rw [execCmp_eq, yields_next, resolve_len]

@[simp] theorem yields_execSta :
    Yields (execSta m s) P ↔ (m.storable = true →
      P ((s.write (resolve m s).ea s.a).setPc (s.pc + BitVec.ofNat 16 m.length))) := by
  cases h : m.storable <;> simp [execSta_eq, execSta_raises, resolve_len, h]

@[simp] theorem yields_execBit :
    Yields (execBit m s) P ↔ (m.bitTestable = true →
      P ((((s.setFlag .n ((operand m s).getLsbD 7)).setFlag .v
        ((operand m s).getLsbD 6)).setFlag .z (decide (s.a &&& operand m s = 0))).setPc
        (s.pc + BitVec.ofNat 16 m.length))) := by
  cases h : m.bitTestable <;> simp [execBit_eq, execBit_raises, resolve_len, h]

@[simp] theorem yields_modifyZN (r : Byte) :
    Yields (modifyZN m r s) P ↔ (m.modifiable = true →
      P (((s.setZN r).write (resolve m s).ea r).setPc (s.pc + BitVec.ofNat 16 m.length))) := by
  cases h : m.modifiable <;> simp [modifyZN_eq, modifyZN_raises, resolve_len, h]

@[simp] theorem yields_shift_acc (op : Byte → Bool → ShiftOut) :
    Yields (shift op .acc s) P ↔
      P ((((s.setFlag .c (op s.a (s.flag .c)).carry).setZN (op s.a (s.flag .c)).value).setA
        (op s.a (s.flag .c)).value).setPc (s.pc + 1)) := by
  rw [shift_acc, yields_next]

@[simp] theorem yields_shift_mem (op : Byte → Bool → ShiftOut) :
    Yields (shift op (.mem m) s) P ↔ (m.modifiable = true →
      P ((((s.setFlag .c (op (operand m s) (s.flag .c)).carry).setZN
        (op (operand m s) (s.flag .c)).value).write (resolve m s).ea
        (op (operand m s) (s.flag .c)).value).setPc (s.pc + BitVec.ofNat 16 m.length))) := by
  cases h : m.modifiable <;> simp [shift_mem, shift_mem_raises, resolve_len, h]

@[simp] theorem yields_branch (cond : Bool) (off : Byte) :
    Yields (branch cond off s) P ↔
      P (s.setPc (if cond then branchTarget s off else afterBranch s)) := by
  rw [branch_eq, yields_next]

@[simp] theorem yields_flagOp (f : Flag) (on : Bool) :
    Yields (flagOp f on s) P ↔ P ((s.setFlag f on).setPc (s.pc + 1)) := by
  rw [flagOp_eq, yields_next]

end

end Sys2Proof.Machine
end

section
/-! The state rules of `10_state.md`: the status register, and what an instruction leaves
unchanged. -/

namespace Sys2Proof

/-! ## Which bytes are HLT -/

theorem OpcodeClass.instr_eq_hlt_iff (cls : OpcodeClass) (op lo hi : Byte) :
    cls.instr op lo hi = .hlt ↔ cls = .halt := by
  cases cls with
  | mem o => cases o <;> simp [OpcodeClass.instr, MemOp.instr]
  | acc o => cases o <;> simp [OpcodeClass.instr, AccOp.instr]
  | impl o => cases o <;> simp [OpcodeClass.instr, ImplOp.instr]
  | rel o => cases o <;> simp [OpcodeClass.instr, RelOp.instr]
  | halt | badMode | badOpcode => simp [OpcodeClass.instr]

/-- `30_encoding.md` R83: only an unassigned byte can be the halt opcode. -/
theorem classify_eq_halt_iff (halt : Option Byte) (b : Byte) :
    classify halt b = .halt ↔ halt = some b ∧ isUnassigned b = true := by
  cases hb : isUnassigned b with
  | true =>
    by_cases hh : halt = some b
    · simp [classify_of_unassigned, hb, hh]
    · simp [classify_of_unassigned, hb, hh, classifyAssigned_ne_halt]
  | false =>
    obtain ⟨hop, hmode⟩ : isBadOpcode b = false ∧ isBadMode b = false := by
      simpa [isUnassigned] using hb
    have hcls : classify halt b = classifyAssigned b :=
      classify_of_assigned halt b (by simp [classifyAssigned_badMode, hmode])
        (by simp [classifyAssigned_badOpcode, hop])
    simp [hcls, classifyAssigned_ne_halt]

end Sys2Proof

namespace Sys2Proof.Machine

open Sys2Proof.Spec

/-! ## The status register -/

/-- The place of a flag in the order of `10_state.md` R30 is its bit number. -/
theorem Flag.index_of_order {k : Nat} {f : Flag}
    (h : [Flag.c, .z, .i, .d, .b, .u, .v, .n][k]? = some f) : k = f.index := by
  have hf : [Flag.c, .z, .i, .d, .b, .u, .v, .n][f.index]? = some f := by cases f <;> rfl
  have hk : k < [Flag.c, .z, .i, .d, .b, .u, .v, .n].length :=
    (List.getElem?_eq_some_iff.1 h).1
  exact (List.getElem?_inj hk (by decide)).1 (h.trans hf.symm)

theorem Flag.exists_index_eq :
    ∀ j < 8, ∃ f ∈ [Flag.c, .z, .i, .d, .b, .u, .v, .n], f.index = j := by decide

/-- Settles O60: `get` is a bit of the byte by definition, and what `getFlag_putFlag` says of the
flags holds of the bits, every bit being a flag's. -/
theorem statusRegisterIsAPureAccessor : Obligations.StatusRegisterIsAPureAccessor := by
  refine ⟨getFlag_putFlag, fun p k f hk => ?_⟩
  obtain rfl := Flag.index_of_order hk
  refine ⟨rfl, fun on j hj => ?_⟩
  obtain ⟨g, -, rfl⟩ := Flag.exists_index_eq j hj
  have hindex : g.index = f.index ↔ g = f := ⟨Flag.index_inj, congrArg Flag.index⟩
  simp only [hindex]
  exact getFlag_putFlag p f g on

/-! ## Registers -/

/-- Settles O23: by the rules of `Yields`, each instruction's next state is a chain of updates, and
the `State` lemmas read the registers off it. The shifts alone have a form that writes `A` and one
that does not. -/
theorem registersChangeOnlyByTheirWriters : Obligations.RegistersChangeOnlyByTheirWriters := by
  intro i s
  change Yields (exec i s) _
  cases i with
  | asl o | rol o | lsr o | ror o => cases o <;> simp [writesA]
  | _ => simp [writesA]

/-! ## Flags -/

@[simp] theorem keepsFlags_refl (p : Byte) (written : List Flag) : KeepsFlags p p written :=
  fun _ _ => rfl

/-- Writing a flag of the list `written` keeps the flags outside it. -/
@[simp] theorem keepsFlags_putFlag {f : Flag} {written : List Flag} (hf : f ∈ written)
    (p q : Byte) (on : Bool) :
    KeepsFlags p (putFlag q f on) written ↔ KeepsFlags p q written := by
  refine forall₂_congr fun g hg => ?_
  have hgf : g ≠ f := (ne_of_mem_of_not_mem hf hg).symm
  simp [hgf]

/-- Settles O24: each write of a flag on the way to the next state is of a flag in the
instruction's list, so `keepsFlags_putFlag` takes the writes off one by one. -/
theorem flagsChangeOnlyByTheirWriters : Obligations.FlagsChangeOnlyByTheirWriters := by
  intro i s
  change Yields (exec i s) _
  cases i with
  | asl o | rol o | lsr o | ror o => cases o <;> simp [flagsWritten]
  | _ => simp [flagsWritten]

/-! ## `PC` -/

theorem afterBranch_toNat (s : State) : (afterBranch s).toNat = (s.pc.toNat + 2) % 65536 := by
  simp [afterBranch]

/-- `43_group0_branch_flag_bit.md` R171: the two arms of `branchTarget` add one signed number. -/
theorem branchTarget_toNat (s : State) (off : Byte) :
    ((branchTarget s off).toNat : Int) = targetNumber s.pc off := by
  have hoff := off.isLt
  have hsign : off.getLsbD 7 = false ↔ 2 * off.toNat < 2 ^ 8 := by
    rw [← BitVec.msb_eq_getLsbD_last, BitVec.msb_eq_false_iff_two_mul_lt]
  rw [branchTarget, targetNumber, BitVec.toInt_eq_toNat_cond]
  by_cases h : 2 * off.toNat < 2 ^ 8
  · rw [if_pos (hsign.2 h), if_pos h, BitVec.toNat_add, zext_toNat, afterBranch_toNat]
    omega
  · rw [if_neg (mt hsign.1 h), if_neg h, BitVec.toNat_sub, BitVec.toNat_ofNat,
      afterBranch_toNat]
    omega

/-- `t` is at the instruction after `i`, or at the target of the branch `i`. -/
def GoesOn (i : Instr) (s t : State) : Prop :=
  t.pc = s.pc + BitVec.ofNat 16 i.length ∨
    ∃ off, branchOffset i = some off ∧ t.pc = branchTarget s off

theorem branch_goesOn {i : Instr} {off : Byte} (hlen : i.length = 2)
    (hoff : branchOffset i = some off) (cond : Bool) (s : State) :
    Yields (branch cond off s) (GoesOn i s) := by
  cases cond with
  | false => simp [GoesOn, hlen, afterBranch]
  | true => simp [GoesOn, hoff]

theorem exec_goesOn (i : Instr) (s : State) : Yields (exec i s) (GoesOn i s) := by
  cases i with
  | bpl off | bmi off | bvc off | bvs off | bcc off | bcs off | bne off | beq off =>
    exact branch_goesOn rfl rfl _ _
  | asl o | rol o | lsr o | ror o => cases o <;> simp [GoesOn, Instr.length]
  | _ => simp [GoesOn, Instr.length]

/-- Settles O26: `exec_goesOn` with its two addresses read as numbers. -/
theorem pcAdvancesByTheLength : Obligations.PcAdvancesByTheLength := by
  intro i s t h
  obtain hpc | ⟨off, hoff, hpc⟩ := exec_goesOn i s t h
  · exact .inl (by simp [hpc])
  · exact .inr ⟨off, hoff, hpc ▸ branchTarget_toNat s off⟩

/-! ## `halted` -/

theorem stepWith_eq_next_iff (params : Params) (s t : State) :
    stepWith params s = .next t ↔
      s.halted = false ∧ exec (fetchInstr params.haltOpcode s) s = .next t := by
  cases h : s.halted <;> simp [stepWith_halted, stepWith_running, h]

theorem fetchInstr_eq_hlt_iff (halt : Option Byte) (s : State) :
    fetchInstr halt s = .hlt ↔ halt = some (s.read s.pc) ∧ isUnassigned (s.read s.pc) = true :=
  (OpcodeClass.instr_eq_hlt_iff _ _ _ _).trans (classify_eq_halt_iff _ _)

/-- `10_state.md` R36: only HLT sets `halted`. -/
theorem exec_halted_iff {i : Instr} {s t : State} (hs : s.halted = false)
    (h : exec i s = .next t) : t.halted = true ↔ i = .hlt := by
  constructor
  · intro ht
    by_contra hi
    obtain ⟨-, -, -, -, hkeeps⟩ := registersChangeOnlyByTheirWriters i s t h
    simp [hkeeps hi, hs] at ht
  · rintro rfl
    have hsets : Yields (exec .hlt s) fun t => t.halted = true := by simp
    exact hsets t h

/-- Settles O22: the step is `exec` of the fetched instruction, only HLT halts, and only the halt
opcode is fetched as HLT. -/
theorem onlyTheHaltOpcodeHalts : Obligations.OnlyTheHaltOpcodeHalts := by
  intro params s t h
  obtain ⟨hs, hexec⟩ := (stepWith_eq_next_iff params s t).1 h
  exact ⟨hs, (exec_halted_iff hs hexec).trans (fetchInstr_eq_hlt_iff _ s)⟩

end Sys2Proof.Machine
end

section
/-! The state an instruction does not look at (`10_state.md` R25, R35). Both statements are cases of
one: changing `SP` and `P` commutes with an instruction that touches `SP` in neither way, when the
change of `P` commutes with writing the flags the core tests and those the instruction writes. -/

namespace Sys2Proof.Machine

open Sys2Proof.Spec

/-! ## Changes of the status byte -/

@[simp] theorem putFlag_getFlag (p : Byte) (f : Flag) : putFlag p f (getFlag p f) = p :=
  status_ext fun g => by by_cases h : g = f <;> simp [h]

@[simp] theorem putFlag_putFlag (p : Byte) (f : Flag) (a b : Bool) :
    putFlag (putFlag p f a) f b = putFlag p f b :=
  status_ext fun g => by by_cases h : g = f <;> simp [h]

theorem putFlag_comm {f k : Flag} (hk : k ≠ f) (p : Byte) (a b : Bool) :
    putFlag (putFlag p f a) k b = putFlag (putFlag p k b) f a :=
  status_ext fun g => by
    by_cases hg : g = k
    · simp [hg, hk]
    · simp [hg]

/-- The change `h` of the status byte commutes with writing the flag `f`. -/
def Spares (h : Byte → Byte) (f : Flag) : Prop :=
  ∀ p on, putFlag (h p) f on = h (putFlag p f on)

theorem spares_id (f : Flag) : Spares id f := fun _ _ => rfl

theorem spares_putFlag {f k : Flag} (hk : k ≠ f) (on : Bool) : Spares (putFlag · f on) k :=
  fun p b => putFlag_comm hk p on b

/-- A change that commutes with writing a flag keeps it: write the value it has. -/
theorem Spares.getFlag_eq {h : Byte → Byte} {f : Flag} (hf : Spares h f) (p : Byte) :
    getFlag (h p) f = getFlag p f := by
  have hwrite : putFlag (h p) f (getFlag p f) = h p := by rw [hf, putFlag_getFlag]
  rw [← hwrite, getFlag_putFlag, if_pos rfl]

/-! ## Changes of `SP` and `P` -/

/-- The state with `SP` changed by `g` and `P` changed by `h`. -/
def State.disturb (g h : Byte → Byte) (s : State) : State := (s.setSp (g s.sp)).setP (h s.p)

section
variable (g h : Byte → Byte) (s : State)

@[simp] theorem State.disturb_a : (s.disturb g h).a = s.a := rfl
@[simp] theorem State.disturb_x : (s.disturb g h).x = s.x := rfl
@[simp] theorem State.disturb_y : (s.disturb g h).y = s.y := rfl
@[simp] theorem State.disturb_sp : (s.disturb g h).sp = g s.sp := rfl
@[simp] theorem State.disturb_pc : (s.disturb g h).pc = s.pc := rfl
@[simp] theorem State.disturb_setA (v : Byte) :
    (s.disturb g h).setA v = (s.setA v).disturb g h := rfl
@[simp] theorem State.disturb_setX (v : Byte) :
    (s.disturb g h).setX v = (s.setX v).disturb g h := rfl
@[simp] theorem State.disturb_setY (v : Byte) :
    (s.disturb g h).setY v = (s.setY v).disturb g h := rfl
@[simp] theorem State.disturb_setPc (v : Word) :
    (s.disturb g h).setPc v = (s.setPc v).disturb g h := rfl
@[simp] theorem State.disturb_setHalted (v : Bool) :
    (s.disturb g h).setHalted v = (s.setHalted v).disturb g h := rfl
@[simp] theorem State.disturb_write (w : Word) (v : Byte) :
    (s.disturb g h).write w v = (s.write w v).disturb g h := rfl

@[simp] theorem resolve_disturb (m : Mode) : resolve m (s.disturb g h) = resolve m s := by
  cases m <;> rfl
@[simp] theorem operand_disturb (m : Mode) : operand m (s.disturb g h) = operand m s := by
  cases m <;> rfl
@[simp] theorem afterBranch_disturb : afterBranch (s.disturb g h) = afterBranch s := rfl
@[simp] theorem branchTarget_disturb (off : Byte) :
    branchTarget (s.disturb g h) off = branchTarget s off := rfl

end

@[simp] theorem mapNext_next (f : State → State) (s : State) :
    mapNext f (.next s) = .next (f s) := rfl
@[simp] theorem mapNext_fault (f : State → State) (k : Fault) :
    mapNext f (.fault k) = .fault k := rfl

/-! ## The shared operations on a changed state -/

section
variable {g h : Byte → Byte} (m : Mode) (s : State)

theorem State.disturb_flag {f : Flag} (hf : Spares h f) : (s.disturb g h).flag f = s.flag f :=
  hf.getFlag_eq s.p

theorem State.disturb_setFlag {f : Flag} (hf : Spares h f) (on : Bool) :
    (s.disturb g h).setFlag f on = (s.setFlag f on).disturb g h :=
  congrArg (s.setSp (g s.sp)).setP (hf s.p on)

theorem State.disturb_setZN (hz : Spares h .z) (hn : Spares h .n) (r : Byte) :
    (s.disturb g h).setZN r = (s.setZN r).disturb g h := by
  rw [State.setZN, State.disturb_setFlag _ hz, State.disturb_setFlag _ hn, State.setZN]

theorem commit_disturb (len : Nat) :
    commit len (s.disturb g h) = mapNext (State.disturb g h) (commit len s) := rfl

theorem branch_disturb (cond : Bool) (off : Byte) :
    branch cond off (s.disturb g h) = mapNext (State.disturb g h) (branch cond off s) := rfl

theorem flagOp_disturb {f : Flag} (hf : Spares h f) (on : Bool) :
    flagOp f on (s.disturb g h) = mapNext (State.disturb g h) (flagOp f on s) := by
  simp [flagOp_eq, State.disturb_setFlag _ hf]

theorem execSta_disturb :
    execSta m (s.disturb g h) = mapNext (State.disturb g h) (execSta m s) := by
  cases hm : m.storable <;> simp [execSta_eq, execSta_raises, hm]

theorem loadA_disturb (hz : Spares h .z) (hn : Spares h .n) (r : Byte) :
    loadA m r (s.disturb g h) = mapNext (State.disturb g h) (loadA m r s) := by
  simp [loadA_eq, State.disturb_setZN _ hz hn]

theorem loadSum_disturb (hc : Spares h .c) (hv : Spares h .v) (hz : Spares h .z)
    (hn : Spares h .n) (r : SumOut) :
    loadSum m r (s.disturb g h) = mapNext (State.disturb g h) (loadSum m r s) := by
  simp [loadSum_eq, State.disturb_setZN _ hz hn, State.disturb_setFlag _ hc,
    State.disturb_setFlag _ hv]

theorem execCmp_disturb (hc : Spares h .c) (hz : Spares h .z) (hn : Spares h .n) :
    execCmp m (s.disturb g h) = mapNext (State.disturb g h) (execCmp m s) := by
  simp [execCmp_eq, State.disturb_setZN _ hz hn, State.disturb_setFlag _ hc]

theorem execBit_disturb (hv : Spares h .v) (hz : Spares h .z) (hn : Spares h .n) :
    execBit m (s.disturb g h) = mapNext (State.disturb g h) (execBit m s) := by
  cases hm : m.bitTestable <;>
    simp [execBit_eq, execBit_raises, hm, State.disturb_setFlag _ hv,
      State.disturb_setFlag _ hz, State.disturb_setFlag _ hn]

theorem modifyZN_disturb (hz : Spares h .z) (hn : Spares h .n) (r : Byte) :
    modifyZN m r (s.disturb g h) = mapNext (State.disturb g h) (modifyZN m r s) := by
  cases hm : m.modifiable <;>
    simp [modifyZN_eq, modifyZN_raises, hm, State.disturb_setZN _ hz hn]

theorem shift_disturb (hc : Spares h .c) (hz : Spares h .z) (hn : Spares h .n)
    (op : Byte → Bool → ShiftOut) (o : ShiftOperand) :
    shift op o (s.disturb g h) = mapNext (State.disturb g h) (shift op o s) := by
  cases o with
  | acc =>
    simp [shift_acc, State.disturb_flag _ hc, State.disturb_setFlag _ hc,
      State.disturb_setZN _ hz hn]
  | mem m =>
    cases hm : m.modifiable <;>
      simp [shift_mem, shift_mem_raises, hm, State.disturb_flag _ hc,
        State.disturb_setFlag _ hc, State.disturb_setZN _ hz hn]

end

/-! ## Every instruction on a changed state -/

/-- An instruction does not see a change of `SP`, unless it is TSX or TXS, nor a change of `P` that
spares the four flags the core computes with and tests, and the flags the instruction writes. -/
theorem exec_disturb {i : Instr} {g h : Byte → Byte} (hsp : i = .tsx ∨ i = .txs → g = id)
    (htested : ∀ f ∈ [Flag.c, .z, .v, .n], Spares h f)
    (hwritten : ∀ f ∈ flagsWritten i, Spares h f) (s : State) :
    exec i (s.disturb g h) = mapNext (State.disturb g h) (exec i s) := by
  have hc := htested .c (by decide)
  have hz := htested .z (by decide)
  have hv := htested .v (by decide)
  have hn := htested .n (by decide)
  cases i with
  | ora m | and m | eor m | lda m => simp [loadA_disturb _ _ hz hn]
  | adc m | sbc m => simp [loadSum_disturb _ _ hc hv hz hn, State.disturb_flag _ hc]
  | sta m => exact execSta_disturb m s
  | cmp m => exact execCmp_disturb m s hc hz hn
  | bit m => exact execBit_disturb m s hv hz hn
  | asl o | rol o | lsr o | ror o => exact shift_disturb s hc hz hn _ o
  | dec m | inc m => simp [modifyZN_disturb _ _ hz hn]
  | tax | tay | txa | tya => simp [State.disturb_setZN _ hz hn, commit_disturb]
  | tsx =>
    obtain rfl := hsp (.inl rfl)
    simp [State.disturb_setZN _ hz hn, commit_disturb]
  | txs =>
    obtain rfl := hsp (.inr rfl)
    rfl
  | bpl | bmi | bvc | bvs | bcc | bcs | bne | beq =>
    simp [branch_disturb, State.disturb_flag _ hn, State.disturb_flag _ hv,
      State.disturb_flag _ hc, State.disturb_flag _ hz]
  | clc | sec | cli | sei | clv | cld | sed =>
    exact flagOp_disturb s (hwritten _ (List.mem_singleton.2 rfl)) _
  | hlt => simp [commit_disturb]
  | illegalOpcode | illegalMode => rfl

/-- Settles O27: `exec_disturb` with `P` unchanged; TXS overwrites the other value. -/
theorem onlyTsxReadsSp : Obligations.OnlyTsxReadsSp := by
  intro i s v htsx
  by_cases htxs : i = .txs
  · rw [if_pos htxs, htxs]
    rfl
  · rw [if_neg htxs]
    exact exec_disturb (g := fun _ => v) (h := id) (fun h => (h.elim htsx htxs).elim)
      (fun f _ => spares_id f) (fun f _ => spares_id f) s

/-- The instructions that write `I` or `D` give it a constant; none writes `B` or `U`
(`10_state.md` R34). -/
theorem exec_eq_flagOp_of_inert {i : Instr} {f : Flag} (hf : f ∈ [Flag.i, .d, .b, .u])
    (hw : f ∈ flagsWritten i) : ∃ on, ∀ s, exec i s = flagOp f on s := by
  cases i with
  | cli | cld =>
    obtain rfl := List.mem_singleton.1 hw
    exact ⟨false, fun _ => rfl⟩
  | sei | sed =>
    obtain rfl := List.mem_singleton.1 hw
    exact ⟨true, fun _ => rfl⟩
  | _ => cases f <;> simp [flagsWritten] at hf hw

theorem flagOp_setFlag_same (f : Flag) (a b : Bool) (s : State) :
    flagOp f b (s.setFlag f a) = flagOp f b s :=
  congrArg (fun p => commit 1 (s.setP p)) (putFlag_putFlag s.p f a b)

/-- Settles O28: `exec_disturb` with `SP` unchanged; an instruction that writes the flag
overwrites the other value. -/
theorem inertFlagsAreReadByNothing : Obligations.InertFlagsAreReadByNothing := by
  intro i s f on hf
  by_cases hw : f ∈ flagsWritten i
  · obtain ⟨b, hi⟩ := exec_eq_flagOp_of_inert hf hw
    rw [if_pos hw, hi, hi, flagOp_setFlag_same]
  · have htested : f ∉ [Flag.c, .z, .v, .n] := by
      revert hf
      cases f <;> decide
    rw [if_neg hw]
    exact exec_disturb (g := id) (h := (putFlag · f on)) (fun _ => rfl)
      (fun k hk => spares_putFlag (ne_of_mem_of_not_mem hk htested) on)
      (fun k hk => spares_putFlag (ne_of_mem_of_not_mem hk hw) on) s

end Sys2Proof.Machine
end

section
/-! What an instruction does to memory, said once: memory after it is memory before it with the
writes of `storeOf` made, the store that `Spec` computes from the tables of
`41_group1_alu_load_store.md` R125 and `42_group2_shift_incdec_transfer.md` R141 to R147. The rules
of `20_memory.md` about stores are read off this. -/

namespace Sys2Proof.Machine

open Sys2Proof.Spec

/-! ## The results of the read-modify-write operations as numbers -/

@[simp] theorem shiftLeft_value_toNat (v : Byte) (c : Bool) :
    (shiftLeft v c).value.toNat = v.toNat * 2 % 256 := by
  simp [shiftLeft, Nat.shiftLeft_eq]

@[simp] theorem shiftRight_value_toNat (v : Byte) (c : Bool) :
    (shiftRight v c).value.toNat = v.toNat / 2 := by
  simp [shiftRight, Nat.shiftRight_eq_div_pow]

/-- Bit 0 of `v <<< 1` is clear, so putting the carry there is an addition. -/
@[simp] theorem rotateLeft_value_toNat (v : Byte) (c : Bool) :
    (rotateLeft v c).value.toNat = (v.toNat * 2 + c.toNat) % 256 := by
  have hc : c.toNat < 2 ^ 1 := c.toNat_lt
  have hcarry : c.toNat % 2 ^ 8 = c.toNat := by omega
  have hshift : v.toNat * 2 ^ 1 % 2 ^ 8 = 2 ^ 1 * (v.toNat % 128) := by omega
  rw [rotateLeft, BitVec.toNat_or, BitVec.toNat_shiftLeft, BitVec.toNat_ofNat, Nat.shiftLeft_eq,
    hshift, hcarry, ← Nat.two_pow_add_eq_or_of_lt hc]
  omega

/-- Bit 7 of `v >>> 1` is clear, so putting the carry there is an addition. -/
@[simp] theorem rotateRight_value_toNat (v : Byte) (c : Bool) :
    (rotateRight v c).value.toNat = v.toNat / 2 + 128 * c.toNat := by
  have hhalf : v.toNat / 2 ^ 1 < 2 ^ 7 := by omega
  have hbit : (BitVec.ofNat 8 c.toNat <<< 7).toNat = 2 ^ 7 * c.toNat := by cases c <;> rfl
  rw [rotateRight, BitVec.toNat_or, BitVec.toNat_ushiftRight, Nat.shiftRight_eq_div_pow, hbit,
    Nat.or_comm, ← Nat.two_pow_add_eq_or_of_lt hhalf]
  omega

@[simp] theorem decrement_toNat (v : Byte) : (decrement v).toNat = (v.toNat + 255) % 256 := by
  simp [decrement, BitVec.toNat_sub, Nat.add_comm]

@[simp] theorem increment_toNat (v : Byte) : (increment v).toNat = (v.toNat + 1) % 256 := by
  simp [increment]

theorem carryIn_eq (s : State) : carryIn s = (s.flag .c).toNat := by
  cases h : s.flag .c <;> simp [carryIn, h]

/-! ## The store of an instruction -/

/-- A mode of the read-modify-write operations reads its operand from memory. -/
theorem operand_of_modifiable {m : Mode} (h : m.modifiable = true) (s : State) :
    operand m s = s.read (resolve m s).ea :=
  operand_of_not_imm m s (by rintro v rfl; simp [Mode.modifiable] at h)

section
variable (m : Mode) (s : State)

theorem storedByte_asl : storedByte (.asl (.mem m)) s =
    some (shiftLeft (s.read (resolve m s).ea) (s.flag .c)).value :=
  congrArg some (BitVec.eq_of_toNat_eq (by simp))

theorem storedByte_rol : storedByte (.rol (.mem m)) s =
    some (rotateLeft (s.read (resolve m s).ea) (s.flag .c)).value :=
  congrArg some (BitVec.eq_of_toNat_eq (by simp [carryIn_eq]))

theorem storedByte_lsr : storedByte (.lsr (.mem m)) s =
    some (shiftRight (s.read (resolve m s).ea) (s.flag .c)).value :=
  congrArg some (BitVec.eq_of_toNat_eq (by simp; omega))

theorem storedByte_ror : storedByte (.ror (.mem m)) s =
    some (rotateRight (s.read (resolve m s).ea) (s.flag .c)).value := by
  have hc := (s.flag .c).toNat_lt
  exact congrArg some (BitVec.eq_of_toNat_eq (by simp [carryIn_eq]; omega))

theorem storedByte_dec : storedByte (.dec m) s =
    some (decrement (s.read (resolve m s).ea)) :=
  congrArg some (BitVec.eq_of_toNat_eq (by simp))

theorem storedByte_inc : storedByte (.inc m) s =
    some (increment (s.read (resolve m s).ea)) :=
  congrArg some (BitVec.eq_of_toNat_eq (by simp))

end

theorem storeOf_of_some {i : Instr} {s : State} {w : Word} {v : Byte}
    (hw : storeAddress i s = some w) (hv : storedByte i s = some v) :
    storeOf i s = [.write w v] := by
  simp [storeOf, hw, hv]

/-- The only write of `storeOf` is at the store address. -/
theorem storeAddress_of_mem_storeOf {i : Instr} {s : State} {w : Word} {v : Byte}
    (h : Access.write w v ∈ storeOf i s) : storeAddress i s = some w := by
  cases hw : storeAddress i s with
  | none => simp [storeOf, hw] at h
  | some a =>
    cases hv : storedByte i s with
    | none => simp [storeOf, hw, hv] at h
    | some b =>
      obtain ⟨rfl, -⟩ : w = a ∧ v = b := by simpa [storeOf_of_some hw hv] using h
      rfl

/-! ## Memory after an instruction -/

/-- `20_memory.md` R64: an instruction makes the write of `storeOf` and no other. -/
theorem exec_mem (i : Instr) (s : State) :
    Yields (exec i s) fun t => t.mem = replayWrites s.mem (storeOf i s) := by
  cases i with
  | sta m => simp [storeOf, storeAddress, storedByte, replayWrites]
  | asl o | rol o | lsr o | ror o =>
    cases o with
    | acc => simp [storeOf, storeAddress, replayWrites]
    | mem m =>
      simp +contextual [storeOf, storeAddress, storedByte_asl, storedByte_rol, storedByte_lsr,
        storedByte_ror, operand_of_modifiable, replayWrites]
  | dec m | inc m =>
    simp +contextual [storeOf, storeAddress, storedByte_dec, storedByte_inc,
      operand_of_modifiable, replayWrites]
  | _ => simp [storeOf, storeAddress, replayWrites]

theorem exec_mem_of_store {i : Instr} {s t : State} {w : Word} {v : Byte}
    (h : exec i s = .next t) (hw : storeAddress i s = some w) (hv : storedByte i s = some v) :
    t.mem = s.mem.write w v := by
  rw [exec_mem i s t h, storeOf_of_some hw hv]
  rfl

/-! ## The canonical form -/

theorem Memory.wf_replayWrites (accesses : List Access) (m : Memory) (h : m.wf = true) :
    (replayWrites m accesses).wf = true := by
  induction accesses generalizing m with
  | nil => exact h
  | cons access rest ih =>
    cases access with
    | read w => exact ih m h
    | write w v => exact ih (m.write w v) (Memory.wf_write m w v h)

/-- Settles O15: memory after a step is memory before it with a list of writes made, and a write
keeps the canonical form. -/
theorem stepKeepsMemoryCanonical : Obligations.StepKeepsMemoryCanonical := by
  intro params s t hwf h
  obtain ⟨-, hexec⟩ := (stepWith_eq_next_iff params s t).1 h
  rw [exec_mem _ s t hexec]
  exact Memory.wf_replayWrites _ _ hwf

/-! ## What a store changes -/

theorem Memory.read_replayWrites_of_not_written {w : Word} (accesses : List Access) (m : Memory)
    (h : ∀ v, Access.write w v ∉ accesses) : (replayWrites m accesses).read w = m.read w := by
  induction accesses generalizing m with
  | nil => rfl
  | cons access rest ih =>
    have hrest : ∀ v, Access.write w v ∉ rest := fun v hv => h v (List.mem_cons_of_mem _ hv)
    cases access with
    | read _ => exact ih m hrest
    | write r v =>
      have hne : w ≠ r := by
        rintro rfl
        exact h v List.mem_cons_self
      exact (ih (m.write r v) hrest).trans (Memory.read_write_other m r v w hne)

/-- Settles O25: the writes an instruction makes are at its store address. -/
theorem memoryChangesOnlyAtTheStoreAddress : Obligations.MemoryChangesOnlyAtTheStoreAddress := by
  intro i s t h w hw
  rw [State.read_eq, exec_mem i s t h]
  exact Memory.read_replayWrites_of_not_written _ _ fun v hv => hw (storeAddress_of_mem_storeOf hv)

/-- Settles O20: the store leaves `A` at the effective address, and LDA absolute loads the byte
there. -/
theorem loadAfterStoreGivesTheStoredByte : Obligations.LoadAfterStoreGivesTheStoredByte := by
  intro m s t u hsta hlda
  have hstored : t.read (resolve m s).ea = s.a := by
    rw [State.read_eq, exec_mem_of_store hsta rfl rfl, Memory.read_write_same]
  have hloads : ∀ w, Yields (exec (.lda (.abs w)) t) fun u => u.a = t.read w := fun w => by
    simp [operand, resolve]
  exact (hloads _ u hlda).trans hstored

/-! ## Fetch after a store -/

/-- An instruction that stores is no branch: it goes on at the next instruction. -/
theorem exec_pc_of_store {i : Instr} {s t : State} {w : Word} (h : exec i s = .next t)
    (hw : storeAddress i s = some w) : t.pc = s.pc + BitVec.ofNat 16 i.length := by
  obtain hpc | ⟨off, hoff, -⟩ := exec_goesOn i s t h
  · exact hpc
  · cases i <;> simp [branchOffset, storeAddress] at hoff hw

/-- An instruction that stores is no HLT. -/
theorem exec_halted_of_store {i : Instr} {s t : State} {w : Word} (h : exec i s = .next t)
    (hw : storeAddress i s = some w) (hs : s.halted = false) : t.halted = false := by
  have hi : i ≠ .hlt := by
    rintro rfl
    simp [storeAddress] at hw
  simpa [hi] using exec_halted_iff hs h

/-- The fetch after a store at `PC` (`20_memory.md` R63): the stored byte is the opcode, and the
two bytes after it are as they were. -/
theorem fetchInstr_of_write_pc (halt : Option Byte) {s t : State} {v : Byte}
    (h : t.mem = s.mem.write t.pc v) :
    fetchInstr halt t = decodeBytes halt v (s.read (t.pc + 1)) (s.read (t.pc + 2)) := by
  have hother : ∀ k : Word, k ≠ 0 → t.read (t.pc + k) = s.read (t.pc + k) := fun k hk => by
    rw [State.read_eq, h, Memory.read_write_other _ _ _ _ (by simpa using hk), State.read_eq]
  have hpc : t.read t.pc = v := by
    rw [State.read_eq, h, Memory.read_write_same]
  rw [fetchInstr, hpc, hother 1 (by decide), hother 2 (by decide)]

/-- Settles O21: after the store `PC` is at the stored byte and the core is not halted, so the next
step runs what is fetched there. -/
theorem storedByteIsTheNextOpcode : Obligations.StoredByteIsTheNextOpcode := by
  intro params i s t v h hw hv hs
  have hpc := exec_pc_of_store h hw
  have hmem : t.mem = s.mem.write t.pc v := hpc ▸ exec_mem_of_store h hw hv
  rw [stepWith_running params t (exec_halted_of_store h hw hs), fetchInstr_of_write_pc _ hmem, hpc]
  simp [BitVec.ofNat_add, BitVec.add_assoc]

/-! ## The zero page -/

theorem zext_toNat_lt (b : Byte) : (zext b).toNat < 256 := by
  rw [zext_toNat]
  exact b.isLt

/-- `40_address_resolver.md` R103, R107: both bytes of a pointer are in the zero page. -/
theorem pointerReads_in_zero_page {ptr : Byte} {w : Word} (h : Reads (pointerReads ptr) w) :
    w.toNat < 256 := by
  have hw : w = zext ptr ∨ w = zext (ptr + 1) := by simpa [Reads, pointerReads] using h
  obtain rfl | rfl := hw <;> exact zext_toNat_lt _

/-- The resolver reads the two bytes after the opcode and, in the two indirect modes, a pointer. -/
theorem reads_resolverReads {m : Mode} {s : State} {w : Word} (h : Reads (resolverReads m s) w) :
    w = s.pc + 1 ∨ w = s.pc + 2 ∨ ∃ ptr, Reads (pointerReads ptr) w := by
  cases m with
  | indX lo | indY lo =>
    obtain h1 | h2 | hp : w = s.pc + 1 ∨ w = s.pc + 2 ∨ Reads (pointerReads _) w := by
      simpa [Reads, resolverReads] using h
    · exact .inl h1
    · exact .inr (.inl h2)
    · exact .inr (.inr ⟨_, hp⟩)
  | _ =>
    have hw : w = s.pc + 1 ∨ w = s.pc + 2 := by simpa [Reads, resolverReads] using h
    exact hw.imp_right Or.inl

/-- Settles O54: the effective addresses are bytes extended by zeros, and so are the addresses of a
pointer. -/
theorem zeroPageAccessesStayInTheZeroPage : Obligations.ZeroPageAccessesStayInTheZeroPage := by
  intro lo s
  refine ⟨zext_toNat_lt lo, zext_toNat_lt (lo + s.x), fun m w h => ?_⟩
  exact (reads_resolverReads h).imp_right (Or.imp_right fun ⟨_, hp⟩ => pointerReads_in_zero_page hp)

end Sys2Proof.Machine
end

section
/-! The canonical form is unique: the bytes of a memory fix its list (`20_memory.md` R50, R52). -/

namespace Sys2Proof.Machine

/-! ## A read of a list, by its first cell -/

@[simp] theorem Memory.readKey_cons_self (a : Nat) (v : Byte) (rest : Memory) :
    Memory.readKey a ((a, v) :: rest) = v := by
  simp [Memory.readKey]

theorem Memory.readKey_cons_of_gt {k a : Nat} (h : a < k) (v : Byte) (rest : Memory) :
    Memory.readKey k ((a, v) :: rest) = Memory.readKey k rest := by
  have h1 : ¬ k < a := by omega
  have h2 : k ≠ a := by omega
  simp [Memory.readKey, h1, h2]

/-- A listed key is not before the first cell. -/
theorem Memory.exists_cons_of_readKey_ne {k : Nat} {m : Memory}
    (h : Memory.readKey k m ≠ Config.unlistedByte) :
    ∃ a v rest, m = (a, v) :: rest ∧ a ≤ k := by
  cases m with
  | nil => exact absurd rfl h
  | cons c rest =>
    obtain ⟨a, v⟩ := c
    refine ⟨a, v, rest, rfl, ?_⟩
    by_contra hlt
    exact h (by simp [Memory.readKey, Nat.lt_of_not_le hlt])

/-- A canonical list lists no key below its bound. -/
theorem Memory.readKey_of_wfFrom {lo k : Nat} {m : Memory} (h : Memory.wfFrom lo m = true)
    (hk : k < lo) : Memory.readKey k m = Config.unlistedByte := by
  by_contra hne
  obtain ⟨a, v, rest, rfl, ha⟩ := Memory.exists_cons_of_readKey_ne hne
  obtain ⟨hlo, -⟩ := (Memory.wfFrom_cons _ _ _ _).1 h
  omega

/-! ## Equal bytes, equal lists -/

/-- Two canonical lists that read the same have the same first key, as each first key is listed in
the other; so the first cells are equal, and the rests read the same. -/
theorem Memory.ext_of_wfFrom {lo : Nat} {m m' : Memory} (h : Memory.wfFrom lo m = true)
    (h' : Memory.wfFrom lo m' = true)
    (heq : ∀ k < 65536, Memory.readKey k m = Memory.readKey k m') : m = m' := by
  induction m generalizing lo m' with
  | nil =>
    cases m' with
    | nil => rfl
    | cons c rest' =>
      obtain ⟨b, w⟩ := c
      obtain ⟨-, hb, hw, -⟩ := (Memory.wfFrom_cons _ _ _ _).1 h'
      exact absurd (by simpa using (heq b hb).symm) hw
  | cons c rest ih =>
    obtain ⟨a, v⟩ := c
    obtain ⟨-, ha, hv, hrest⟩ := (Memory.wfFrom_cons _ _ _ _).1 h
    have hread : Memory.readKey a m' = v := by rw [← heq a ha, Memory.readKey_cons_self]
    obtain ⟨b, w, rest', rfl, hba⟩ := Memory.exists_cons_of_readKey_ne (hread ▸ hv)
    obtain ⟨-, hb, hw, hrest'⟩ := (Memory.wfFrom_cons _ _ _ _).1 h'
    have hread' : Memory.readKey b ((a, v) :: rest) = w := by
      rw [heq b hb, Memory.readKey_cons_self]
    obtain ⟨_, _, _, hcons, hab⟩ := Memory.exists_cons_of_readKey_ne (hread' ▸ hw)
    obtain ⟨⟨rfl, rfl⟩, rfl⟩ : (_ ∧ _) ∧ _ := by simpa using hcons
    obtain rfl : a = b := by omega
    obtain rfl : v = w := by simpa using hread.symm
    refine congrArg _ (ih hrest hrest' fun k hk => ?_)
    by_cases hka : a < k
    · simpa [Memory.readKey_cons_of_gt hka] using heq k hk
    · have hlt : k < a + 1 := by omega
      rw [Memory.readKey_of_wfFrom hrest hlt, Memory.readKey_of_wfFrom hrest' hlt]

/-- Settles O18: every key below 65536 is the number of an address. -/
theorem canonicalMemoriesWithTheSameBytesAreEqual :
    Obligations.CanonicalMemoriesWithTheSameBytesAreEqual := by
  intro m m' h h' heq
  refine Memory.ext_of_wfFrom h h' fun k hk => ?_
  simpa [Memory.read, Nat.mod_eq_of_lt hk] using heq (BitVec.ofNat 16 k)

end Sys2Proof.Machine
end

section
/-! The encoding (`30_encoding.md`). Both round trips rest on one description of the decoder: a list
decodes exactly when it is an opcode byte, the operand bytes of the byte's class, and a rest. Every
instruction so read is well-formed and encodes to the bytes read, and every well-formed instruction
is read from some bytes. -/

namespace Sys2Proof

/-! ## The fields of the opcode byte -/

/-- Settles O3: R71 for each of the 256 bytes. -/
theorem opcodeFieldsRecomposeTheByte : Obligations.OpcodeFieldsRecomposeTheByte := by
  unfold Obligations.OpcodeFieldsRecomposeTheByte
  decide

/-- `30_encoding.md` R71: `Decode` of the byte with three given fields. -/
theorem decodeFields_opcodeByte : ∀ opClass < 8, ∀ sel < 8, ∀ group < 4,
    decodeFields (opcodeByte opClass sel group) =
      { group := group, opClass := opClass, addrSel := sel } := by
  decide

/-! ## Modes without their operand bytes -/

/-- The mode without its operand bytes. -/
def Mode.kind : Mode → ModeKind
  | .indX _ => .indX
  | .zp _ => .zp
  | .imm _ => .imm
  | .abs _ => .abs
  | .indY _ => .indY
  | .zpX _ => .zpX
  | .absY _ => .absY
  | .absX _ => .absX

theorem Mode.sel_lt (m : Mode) : m.sel < 8 := by cases m <;> simp

theorem Mode.ofSel_sel (m : Mode) : ModeKind.ofSel m.sel = m.kind := by cases m <;> rfl

/-- `30_encoding.md` R74: a mode is its kind with its operand bytes. -/
theorem Mode.exists_withBytes (m : Mode) : ∃ lo hi, m.kind.withBytes lo hi = m := by
  cases m with
  | indX b | zp b | imm b | indY b | zpX b => exact ⟨b, 0, rfl⟩
  | abs w | absY w | absX w =>
    exact ⟨loByte w, hiByte w, by simp [Mode.kind, ModeKind.withBytes]⟩

theorem Mode.kind_ne_imm_of_storable {m : Mode} (h : m.storable = true) : m.kind ≠ .imm := by
  cases m with
  | imm => simp [Mode.storable] at h
  | _ => simp [Mode.kind]

@[simp] theorem ModeKind.kind_withBytes (kind : ModeKind) (lo hi : Byte) :
    (kind.withBytes lo hi).kind = kind := by
  cases kind <;> rfl

@[simp] theorem ModeKind.bytes_withBytes (kind : ModeKind) (lo hi : Byte) :
    (kind.withBytes lo hi).bytes = [lo, hi].take (kind.length - 1) := by
  cases kind <;> simp [ModeKind.withBytes, Mode.bytes, ModeKind.length]

/-! ## The class of an opcode byte -/

/-- `30_encoding.md` R83: the halt opcode is taken out of the unassigned bytes. -/
theorem classify_eq (halt : Option Byte) (b : Byte) :
    classify halt b =
      if halt = some b ∧ isUnassigned b = true then .halt else classifyAssigned b := by
  by_cases h : halt = some b ∧ isUnassigned b = true
  · rw [if_pos h, (classify_eq_halt_iff halt b).2 h]
  · rw [if_neg h]
    have hne : classify halt b ≠ .halt := mt (classify_eq_halt_iff halt b).1 h
    unfold classify at hne ⊢
    split <;> simp_all

theorem classifyModify_ofSel_sel {m : Mode} (h : m.modifiable = true) (op : MemOp)
    (other : OpcodeClass) : classifyModify op (.ofSel m.sel) other = .mem op m.kind := by
  rw [m.ofSel_sel]
  cases m with
  | zp | abs | zpX | absX => rfl
  | indX | imm | indY | absY => simp [Mode.modifiable] at h

/-! ## The operand bytes of a class -/

/-- The bytes a class takes after its opcode, out of the two that follow it. -/
def OpcodeClass.operands (cls : OpcodeClass) (lo hi : Byte) : List Byte :=
  [lo, hi].take (cls.length - 1)

/-- An instruction is made from no bytes but its opcode and the operand bytes of its class. -/
theorem OpcodeClass.instr_congr {cls : OpcodeClass} {lo hi lo' hi' : Byte} (op : Byte)
    (h : cls.operands lo hi = cls.operands lo' hi') :
    cls.instr op lo hi = cls.instr op lo' hi' := by
  cases cls with
  | mem o kind =>
    have hmode : kind.withBytes lo hi = kind.withBytes lo' hi' := by
      cases kind <;> simp_all [operands, length, ModeKind.length, ModeKind.withBytes]
    simp only [instr, hmode]
  | rel o =>
    obtain rfl : lo = lo' := by simpa [operands, length] using h
    rfl
  | _ => rfl

/-- What the decoder answers on an opcode byte with its operand bytes. -/
theorem decodeFor_operands (halt : Option Byte) (op lo hi : Byte) (rest : List Byte) :
    decodeFor halt (op :: ((classify halt op).operands lo hi ++ rest)) =
      .ok (decodeBytes halt op lo hi, rest) := by
  obtain h | h | h := (classify halt op).length_cases
  · rw [decodeBytes, OpcodeClass.instr_congr (lo' := 0) (hi' := 0) op
      (by simp [OpcodeClass.operands, h])]
    simpa [OpcodeClass.operands, h] using decodeFor_one halt op rest _ rfl h
  · rw [decodeBytes, OpcodeClass.instr_congr (lo' := lo) (hi' := 0) op
      (by simp [OpcodeClass.operands, h])]
    simpa [OpcodeClass.operands, h] using decodeFor_two halt op lo rest _ rfl h
  · simpa [OpcodeClass.operands, h, decodeBytes] using decodeFor_three halt op lo hi rest _ rfl h

/-- The decoder reads nothing else. -/
theorem decodeFor_eq_ok {halt : Option Byte} {bytes rest : List Byte} {i : Instr}
    (h : decodeFor halt bytes = .ok (i, rest)) :
    ∃ op lo hi, i = decodeBytes halt op lo hi ∧
      bytes = op :: ((classify halt op).operands lo hi ++ rest) := by
  match bytes with
  | [] => simp [decodeFor] at h
  | op :: tail =>
    obtain hlen | hlen | hlen := (classify halt op).length_cases
    · simp only [decodeFor, hlen] at h
      cases h
      exact ⟨op, 0, 0, rfl, by simp [OpcodeClass.operands, hlen]⟩
    · match tail with
      | [] => simp [decodeFor, hlen] at h
      | lo :: tail =>
        simp only [decodeFor, hlen] at h
        cases h
        exact ⟨op, lo, 0, rfl, by simp [OpcodeClass.operands, hlen]⟩
    · match tail with
      | [] | [_] => simp [decodeFor, hlen] at h
      | lo :: hi :: tail =>
        simp only [decodeFor, hlen] at h
        cases h
        exact ⟨op, lo, hi, rfl, by simp [OpcodeClass.operands, hlen]⟩

/-! ## What is read is well-formed and encodes to the bytes read -/

/-- The first byte of the encoding of the instructions of a class. -/
def OpcodeClass.opcode (cls : OpcodeClass) (op : Byte) : Byte :=
  (encodeFor none (cls.instr op 0 0)).headD 0

theorem opcode_classifyAssigned : ∀ b : Byte, (classifyAssigned b).opcode b = b := by
  decide

theorem wfFor_instr_classifyAssigned :
    ∀ b : Byte, ((classifyAssigned b).instr b 0 0).wfFor none = true := by
  decide

/-- Whether a memory-operand operation has a mode depends on no operand byte. -/
theorem MemOp.wfFor_instr (halt : Option Byte) (o : MemOp) (m : Mode) :
    (o.instr m).wfFor halt = (o.instr (m.kind.withBytes 0 0)).wfFor none := by
  cases m <;> cases o <;> rfl

/-- The opcode of a memory-operand operation depends on no operand byte. -/
theorem MemOp.encodeFor_instr (halt : Option Byte) (o : MemOp) (m : Mode) :
    encodeFor halt (o.instr m) =
      (encodeFor none (o.instr (m.kind.withBytes 0 0))).headD 0 :: m.bytes := by
  cases m <;> cases o <;> rfl

theorem OpcodeClass.encodeFor_instr (halt : Option Byte) {cls : OpcodeClass} (h : cls ≠ .halt)
    (op lo hi : Byte) :
    encodeFor halt (cls.instr op lo hi) = cls.opcode op :: cls.operands lo hi := by
  cases cls with
  | mem o kind =>
    rw [instr, MemOp.encodeFor_instr, ModeKind.kind_withBytes, ModeKind.bytes_withBytes]
    rfl
  | acc o => cases o <;> rfl
  | impl o => cases o <;> rfl
  | rel o => cases o <;> rfl
  | halt => exact absurd rfl h
  | badMode | badOpcode => rfl

/-- Decoding drops no bit of the bytes it reads. -/
theorem encodeFor_decodeBytes (halt : Option Byte) (op lo hi : Byte) :
    encodeFor halt (decodeBytes halt op lo hi) =
      op :: (classify halt op).operands lo hi := by
  rw [decodeBytes, classify_eq]
  split
  next h =>
    obtain ⟨rfl, -⟩ := h
    rfl
  next => rw [OpcodeClass.encodeFor_instr halt (classifyAssigned_ne_halt op),
    opcode_classifyAssigned]

theorem wfFor_decodeBytes (halt : Option Byte) (op lo hi : Byte) :
    (decodeBytes halt op lo hi).wfFor halt = true := by
  rw [decodeBytes, classify_eq]
  split
  next h =>
    obtain ⟨rfl, hop⟩ := h
    exact hop
  next h =>
    have hzero := wfFor_instr_classifyAssigned op
    cases hcls : classifyAssigned op with
    | mem o kind =>
      rw [hcls] at hzero
      rwa [OpcodeClass.instr, MemOp.wfFor_instr, ModeKind.kind_withBytes]
    | acc o => cases o <;> rfl
    | impl o => cases o <;> rfl
    | rel o => cases o <;> rfl
    | halt => exact absurd hcls (classifyAssigned_ne_halt op)
    | badMode =>
      have hop : isBadMode op = true := (classifyAssigned_badMode op).1 hcls
      simp_all [OpcodeClass.instr, Instr.wfFor, isUnassigned]
    | badOpcode =>
      have hop : isBadOpcode op = true := (classifyAssigned_badOpcode op).1 hcls
      simp_all [OpcodeClass.instr, Instr.wfFor, isUnassigned]

/-- Settles O2: by `decodeFor_eq_ok` the instruction is that of an opcode byte and its operand
bytes, of which the two facts above speak. -/
theorem encodeOfDecodeIsTheBytes : Obligations.EncodeOfDecodeIsTheBytes := by
  intro halt bytes i rest h
  obtain ⟨op, lo, hi, rfl, rfl⟩ := decodeFor_eq_ok h
  exact ⟨wfFor_decodeBytes halt op lo hi, by simp [encodeFor_decodeBytes]⟩

/-! ## Every well-formed instruction is read from some bytes -/

theorem decodeBytes_illegalOpcode {halt : Option Byte} {b : Byte} (hb : isBadOpcode b = true)
    (hhalt : halt ≠ some b) (lo hi : Byte) : decodeBytes halt b lo hi = .illegalOpcode b := by
  simp [decodeBytes, classify_eq, hhalt, (classifyAssigned_badOpcode b).2 hb, OpcodeClass.instr]

theorem decodeBytes_illegalMode {halt : Option Byte} {b : Byte} (hb : isBadMode b = true)
    (hhalt : halt ≠ some b) (lo hi : Byte) : decodeBytes halt b lo hi = .illegalMode b := by
  simp [decodeBytes, classify_eq, hhalt, (classifyAssigned_badMode b).2 hb, OpcodeClass.instr]

/-- `i` is read from an opcode byte and the two bytes after it. -/
def IsDecoded (halt : Option Byte) (i : Instr) : Prop := ∃ op lo hi, decodeBytes halt op lo hi = i

theorem isDecoded_mem {halt : Option Byte} {op : Byte} (o : MemOp) {m : Mode}
    (h : classifyAssigned op = .mem o m.kind) : IsDecoded halt (o.instr m) := by
  obtain ⟨lo, hi, hm⟩ := m.exists_withBytes
  refine ⟨op, lo, hi, ?_⟩
  rw [decodeBytes, classify_of_assigned halt op (by simp [h]) (by simp [h]), h, OpcodeClass.instr,
    hm]

/-- `30_encoding.md` R75: the row of an operation of group 1. -/
theorem isDecoded_group1 {halt : Option Byte} (o : MemOp) {m : Mode} (opClass : Nat)
    (hclass : opClass < 8) (h : classifyGroup1 opClass m.kind = .mem o m.kind) :
    IsDecoded halt (o.instr m) := by
  refine isDecoded_mem (op := opcodeByte opClass m.sel 1) o ?_
  simp [classifyAssigned, decodeFields_opcodeByte opClass hclass m.sel m.sel_lt 1 (by decide),
    m.ofSel_sel, h]

/-- `30_encoding.md` R76: the row of a read-modify-write operation of group 2. -/
theorem isDecoded_group2 {halt : Option Byte} (o : MemOp) {m : Mode} (opClass : Nat)
    (hclass : opClass < 8) (hm : m.modifiable = true) {other : OpcodeClass}
    (h : classifyGroup2 opClass m.sel = classifyModify o (.ofSel m.sel) other) :
    IsDecoded halt (o.instr m) := by
  refine isDecoded_mem (op := opcodeByte opClass m.sel 2) o ?_
  simp [classifyAssigned, decodeFields_opcodeByte opClass hclass m.sel m.sel_lt 2 (by decide), h,
    classifyModify_ofSel_sel hm]

/-- `30_encoding.md` R75, R76, R79, R83: the opcode map has a byte for every well-formed
instruction. -/
theorem isDecoded_of_wfFor {halt : Option Byte} {i : Instr} (h : i.wfFor halt = true) :
    IsDecoded halt i := by
  cases i with
  | ora m => exact isDecoded_group1 .ora 0 (by decide) rfl
  | and m => exact isDecoded_group1 .and 1 (by decide) rfl
  | eor m => exact isDecoded_group1 .eor 2 (by decide) rfl
  | adc m => exact isDecoded_group1 .adc 3 (by decide) rfl
  | sta m =>
    exact isDecoded_group1 .sta 4 (by decide) (if_neg (Mode.kind_ne_imm_of_storable h))
  | lda m => exact isDecoded_group1 .lda 5 (by decide) rfl
  | cmp m => exact isDecoded_group1 .cmp 6 (by decide) rfl
  | sbc m => exact isDecoded_group1 .sbc 7 (by decide) rfl
  | asl o =>
    cases o with
    | acc => exact ⟨0x0A, 0, 0, rfl⟩
    | mem m => exact isDecoded_group2 .asl 0 (by decide) h rfl
  | rol o =>
    cases o with
    | acc => exact ⟨0x2A, 0, 0, rfl⟩
    | mem m => exact isDecoded_group2 .rol 1 (by decide) h rfl
  | lsr o =>
    cases o with
    | acc => exact ⟨0x4A, 0, 0, rfl⟩
    | mem m => exact isDecoded_group2 .lsr 2 (by decide) h rfl
  | ror o =>
    cases o with
    | acc => exact ⟨0x6A, 0, 0, rfl⟩
    | mem m => exact isDecoded_group2 .ror 3 (by decide) h rfl
  | dec m => exact isDecoded_group2 .dec 6 (by decide) h rfl
  | inc m => exact isDecoded_group2 .inc 7 (by decide) h rfl
  | bit m =>
    cases m with
    | zp b => exact ⟨0x24, b, 0, rfl⟩
    | abs w => exact isDecoded_mem .bit (m := .abs w) (op := 0x2C) rfl
    | _ => simp [Instr.wfFor, Mode.bitTestable] at h
  | tax => exact ⟨0xAA, 0, 0, rfl⟩
  | tay => exact ⟨0xA8, 0, 0, rfl⟩
  | txa => exact ⟨0x8A, 0, 0, rfl⟩
  | tya => exact ⟨0x98, 0, 0, rfl⟩
  | tsx => exact ⟨0xBA, 0, 0, rfl⟩
  | txs => exact ⟨0x9A, 0, 0, rfl⟩
  | bpl off => exact ⟨0x10, off, 0, rfl⟩
  | bmi off => exact ⟨0x30, off, 0, rfl⟩
  | bvc off => exact ⟨0x50, off, 0, rfl⟩
  | bvs off => exact ⟨0x70, off, 0, rfl⟩
  | bcc off => exact ⟨0x90, off, 0, rfl⟩
  | bcs off => exact ⟨0xB0, off, 0, rfl⟩
  | bne off => exact ⟨0xD0, off, 0, rfl⟩
  | beq off => exact ⟨0xF0, off, 0, rfl⟩
  | clc => exact ⟨0x18, 0, 0, rfl⟩
  | sec => exact ⟨0x38, 0, 0, rfl⟩
  | cli => exact ⟨0x58, 0, 0, rfl⟩
  | sei => exact ⟨0x78, 0, 0, rfl⟩
  | clv => exact ⟨0xB8, 0, 0, rfl⟩
  | cld => exact ⟨0xD8, 0, 0, rfl⟩
  | sed => exact ⟨0xF8, 0, 0, rfl⟩
  | hlt =>
    obtain ⟨b, rfl, hb⟩ := (Option.any_eq_true _ _).1 h
    exact ⟨b, 0, 0, by simp [decodeBytes, classify_eq, hb, OpcodeClass.instr]⟩
  | illegalOpcode b =>
    obtain ⟨hb, hhalt⟩ : isBadOpcode b = true ∧ halt ≠ some b := by simpa [Instr.wfFor] using h
    exact ⟨b, 0, 0, decodeBytes_illegalOpcode hb hhalt 0 0⟩
  | illegalMode b =>
    obtain ⟨hb, hhalt⟩ : isBadMode b = true ∧ halt ≠ some b := by simpa [Instr.wfFor] using h
    exact ⟨b, 0, 0, decodeBytes_illegalMode hb hhalt 0 0⟩

/-- Settles O1: the instruction is read from some opcode byte and operand bytes, and they are its
encoding, so the decoder reads it from them again. -/
theorem decodeOfEncodeIsTheInstruction : Obligations.DecodeOfEncodeIsTheInstruction := by
  intro halt i rest h
  obtain ⟨op, lo, hi, rfl⟩ := isDecoded_of_wfFor h
  rw [encodeFor_decodeBytes]
  exact decodeFor_operands halt op lo hi rest

/-! ## Words and counts -/

/-- Settles O4: each word is read by evaluating the decoder on it. -/
theorem wordsOfTheOpcodeMapDecode : Obligations.WordsOfTheOpcodeMapDecode :=
  ⟨rfl, rfl, rfl, rfl, rfl, rfl, rfl, rfl, rfl, rfl, rfl, rfl⟩

/-- Settles O5: the classes of the 256 bytes, counted. -/
theorem classCountsOfThe256Bytes : Obligations.ClassCountsOfThe256Bytes := by
  unfold Obligations.ClassCountsOfThe256Bytes
  decide +kernel

end Sys2Proof
end

section
/-! Which bytes raise the two errors of a step that is not halted (`60_exceptions.md` R231, R232):
a well-formed instruction fails only if it is an illegal byte, and the decoder reads nothing but
well-formed instructions. -/

namespace Sys2Proof.Machine

/-- `44_step_engine_and_halt.md` R205: a handler cannot fail. -/
theorem exec_completes {halt : Option Byte} {i : Instr} (h : i.wfFor halt = true)
    (hop : ∀ b, i ≠ .illegalOpcode b) (hmode : ∀ b, i ≠ .illegalMode b) (s : State) :
    ∃ t, exec i s = .next t := by
  cases i with
  | sta m => exact ⟨_, execSta_eq m s h⟩
  | asl o | rol o | lsr o | ror o =>
    cases o with
    | acc => exact ⟨_, shift_acc _ s⟩
    | mem m => exact ⟨_, shift_mem _ m s h⟩
  | dec m | inc m => exact ⟨_, modifyZN_eq m _ s h⟩
  | bit m => exact ⟨_, execBit_eq m s h⟩
  | illegalOpcode b => exact absurd rfl (hop b)
  | illegalMode b => exact absurd rfl (hmode b)
  | _ => exact ⟨_, rfl⟩

/-- `60_exceptions.md` R230: of the well-formed instructions only the illegal bytes fail. -/
theorem exec_eq_fault_iff {halt : Option Byte} {i : Instr} (h : i.wfFor halt = true)
    (kind : Fault) (s : State) :
    exec i s = .fault kind ↔
      (∃ b, i = .illegalOpcode b ∧ kind = .illegalOpcode) ∨
        ∃ b, i = .illegalMode b ∧ kind = .illegalAddressingMode := by
  by_cases hop : ∃ b, i = .illegalOpcode b
  · obtain ⟨b, rfl⟩ := hop
    simp [eq_comm]
  by_cases hmode : ∃ b, i = .illegalMode b
  · obtain ⟨b, rfl⟩ := hmode
    simp [eq_comm]
  push Not at hop hmode
  obtain ⟨t, ht⟩ := exec_completes h hop hmode s
  simp [ht, hop, hmode]

theorem stepWith_eq_fault_iff {kind : Fault} (hkind : kind ≠ .haltedViolation) (params : Params)
    (s : State) :
    stepWith params s = .fault kind ↔
      s.halted = false ∧ exec (fetchInstr params.haltOpcode s) s = .fault kind := by
  cases h : s.halted <;> simp [stepWith_halted, stepWith_running, h, hkind.symm]

theorem wfFor_fetchInstr (halt : Option Byte) (s : State) :
    (fetchInstr halt s).wfFor halt = true :=
  wfFor_decodeBytes halt _ _ _

theorem head?_encodeFor_fetchInstr (halt : Option Byte) (s : State) :
    (encodeFor halt (fetchInstr halt s)).head? = some (s.read s.pc) := by
  rw [fetchInstr, encodeFor_decodeBytes, List.head?_cons]

/-- `30_encoding.md` R84: an illegal opcode is fetched exactly where its byte stands. -/
theorem fetchInstr_eq_illegalOpcode_iff (halt : Option Byte) (s : State) :
    (∃ b, fetchInstr halt s = .illegalOpcode b) ↔
      isBadOpcode (s.read s.pc) = true ∧ halt ≠ some (s.read s.pc) := by
  constructor
  · rintro ⟨b, h⟩
    obtain rfl : b = s.read s.pc := by simpa [h, encodeFor] using head?_encodeFor_fetchInstr halt s
    simpa [h, Instr.wfFor] using wfFor_fetchInstr halt s
  · rintro ⟨hb, hhalt⟩
    exact ⟨_, decodeBytes_illegalOpcode hb hhalt _ _⟩

/-- `30_encoding.md` R85: an illegal mode is fetched exactly where its byte stands. -/
theorem fetchInstr_eq_illegalMode_iff (halt : Option Byte) (s : State) :
    (∃ b, fetchInstr halt s = .illegalMode b) ↔
      isBadMode (s.read s.pc) = true ∧ halt ≠ some (s.read s.pc) := by
  constructor
  · rintro ⟨b, h⟩
    obtain rfl : b = s.read s.pc := by simpa [h, encodeFor] using head?_encodeFor_fetchInstr halt s
    simpa [h, Instr.wfFor] using wfFor_fetchInstr halt s
  · rintro ⟨hb, hhalt⟩
    exact ⟨_, decodeBytes_illegalMode hb hhalt _ _⟩

/-- Settles O8: the fetched instruction is well-formed, so the error is that of an illegal opcode,
which is fetched exactly on the bytes of the list. -/
theorem illegalOpcodeExactlyOnItsBytes : Obligations.IllegalOpcodeExactlyOnItsBytes := by
  refine ⟨fun params s => ?_, by decide, by decide +kernel⟩
  rw [stepWith_eq_fault_iff (by decide), exec_eq_fault_iff (wfFor_fetchInstr _ _),
    ← fetchInstr_eq_illegalOpcode_iff]
  simp

/-- Settles O9: as for the illegal opcodes, with the other list. -/
theorem illegalAddressingModeExactlyOnItsBytes :
    Obligations.IllegalAddressingModeExactlyOnItsBytes := by
  refine ⟨fun params s => ?_, by decide, by decide +kernel⟩
  rw [stepWith_eq_fault_iff (by decide), exec_eq_fault_iff (wfFor_fetchInstr _ _),
    ← fetchInstr_eq_illegalMode_iff]
  simp

end Sys2Proof.Machine
end

section
/-! The address resolver (`40_address_resolver.md`): its address sums and page crosses as numbers,
the immediate operand as the byte after the opcode, and the operations that lack a mode. -/

namespace Sys2Proof

theorem hiByte_toNat (w : Word) : (hiByte w).toNat = w.toNat / 256 := by
  have h := w.isLt
  simp only [hiByte, BitVec.toNat_setWidth, BitVec.toNat_ushiftRight, Nat.shiftRight_eq_div_pow]
  omega

theorem zext_eq_ofNat (b : Byte) : zext b = BitVec.ofNat 16 b.toNat :=
  (BitVec.ofNat_toNat 16 b).symm

end Sys2Proof

namespace Sys2Proof.Machine

open Sys2Proof.Spec

/-! ## A base address plus an index -/

/-- `40_address_resolver.md` R107, R109, R110: the sum wraps only at 65536. -/
theorem indexed_ea_toNat (base : Word) (index : Byte) (len : Nat) :
    (indexed base index len).ea.toNat = (base.toNat + index.toNat) % 65536 := by
  rw [indexed_ea, BitVec.toNat_add, zext_toNat]

/-- `40_address_resolver.md` R111: the page of the sum is another exactly when the low bytes
carry, whether or not the sum wraps. -/
theorem indexed_extra (base : Word) (index : Byte) (len : Nat) :
    (indexed base index len).extra =
      if base.toNat % 256 + index.toNat ≥ 256 then 1 else 0 := by
  have hcross : hiByte (base + zext index) ≠ hiByte base ↔
      base.toNat % 256 + index.toNat ≥ 256 := by
    have hbase := base.isLt
    have hindex := index.isLt
    rw [ne_eq, ← BitVec.toNat_inj, hiByte_toNat, hiByte_toNat, BitVec.toNat_add, zext_toNat]
    omega
  simp only [indexed, hcross]

/-- `40_address_resolver.md` R103, R107: the word at a zero-page pointer as a number. -/
theorem zpPointer_toNat (s : State) (ptr : Byte) :
    (zpPointer s ptr).toNat =
      (s.read (zext (ptr + 1))).toNat * 256 + (s.read (zext ptr)).toNat :=
  wordOf_toNat _ _

/-- The low byte of the word at a zero-page pointer is the byte the pointer names. -/
theorem zpPointer_toNat_mod (s : State) (ptr : Byte) :
    (zpPointer s ptr).toNat % 256 = (s.read (zext ptr)).toNat := by
  rw [zpPointer_toNat, Nat.mul_add_mod_of_lt (s.read (zext ptr)).isLt]

/-- Settles O53: in the three indexed modes by `indexed_extra`; the other five answer 0. -/
theorem pageCrossIsACarryOutOfTheLowByte : Obligations.PageCrossIsACarryOutOfTheLowByte := by
  intro m s
  cases m with
  | indY lo =>
    have h := indexed_extra (zpPointer s lo) s.y 2
    rw [zpPointer_toNat_mod] at h
    exact h
  | absY base => exact indexed_extra base s.y 3
  | absX base => exact indexed_extra base s.x 3
  | indX | zp | imm | abs | zpX => rfl

/-- Settles O52: the five modes without a page cross are their definition, with a byte extended by
zeros read as a number; the three others are sums by `indexed_ea_toNat`. -/
theorem resolverModes : Obligations.ResolverModes := by
  intro s lo w
  refine ⟨⟨rfl, rfl⟩, ⟨?zp, rfl⟩, ⟨rfl, rfl⟩, ⟨rfl, rfl⟩, ⟨?indY, rfl, rfl⟩, ⟨?zpX, rfl⟩,
    ⟨indexed_ea_toNat w s.y 3, rfl, rfl⟩, ⟨indexed_ea_toNat w s.x 3, rfl, rfl⟩⟩
  case zp => rw [resolve, zext_eq_ofNat]
  case indY => rw [resolve, indexed_ea_toNat, zpPointer_toNat]
  case zpX => rw [resolve, zext_eq_ofNat, BitVec.toNat_add]

/-! ## The immediate operand -/

/-- `30_encoding.md` R72: an immediate instruction is its opcode byte and its operand byte. -/
theorem encodeFor_of_immediate (halt : Option Byte) {i : Instr} {v : Byte}
    (h : immediate i = some v) : ∃ op, encodeFor halt i = [op, v] := by
  cases i with
  | ora m | and m | eor m | adc m | lda m | cmp m | sbc m =>
    cases m with
    | imm b =>
      obtain rfl : b = v := Option.some.inj h
      exact ⟨_, rfl⟩
    | _ => simp [immediate] at h
  | _ => simp [immediate] at h

/-- The operand byte of a decoded immediate instruction is the first byte after the opcode: it is
the second byte of the encoding, and the bytes decoded are the encoding. -/
theorem immediate_decodeBytes {halt : Option Byte} {op lo hi v : Byte}
    (h : immediate (decodeBytes halt op lo hi) = some v) : v = lo := by
  obtain ⟨b, hb⟩ := encodeFor_of_immediate halt h
  rw [encodeFor_decodeBytes, OpcodeClass.operands] at hb
  obtain hlen | hlen | hlen := (classify halt op).length_cases
  · simp [hlen] at hb
  · obtain ⟨-, rfl⟩ : op = b ∧ lo = v := by simpa [hlen] using hb
    rfl
  · simp [hlen] at hb

/-- Settles O55: the fetch hands the decoder the byte at `PC + 1` as the first operand byte. -/
theorem immediateOperandIsTheByteAfterTheOpcode :
    Obligations.ImmediateOperandIsTheByteAfterTheOpcode := by
  intro halt s v h
  have hv : v = s.read (s.pc + 1) := immediate_decodeBytes h
  exact hv

/-! ## Operations that lack a mode -/

/-- Settles O13: the handlers of these operations are calls of the four operations that check the
mode. -/
theorem unsupportedPairingsRaise : Obligations.UnsupportedPairingsRaise := by
  refine ⟨fun v s => execSta_raises (.imm v) s rfl, fun m s h => ?_, execBit_raises⟩
  have hshift := fun op => shift_mem_raises op m s h
  have hmodify := fun r => modifyZN_raises m r s h
  exact ⟨hshift _, hshift _, hshift _, hshift _, hmodify _, hmodify _⟩

end Sys2Proof.Machine
end

section
/-! Group 1 (`41_group1_alu_load_store.md`). The seven instructions that read an operand and STA
share the frame of R120, said once for each of their shared operations; the arithmetic of ADC, SBC
and CMP rests on one equation, that the carry and the byte of an add are the two digits of the
sum. -/

namespace Sys2Proof.Machine

open Sys2Proof.Spec

/-! ## The frame of R120 -/

theorem pcAfter_eq (m : Mode) (s : State) :
    pcAfter m s = s.pc + BitVec.ofNat 16 (resolve m s).len := by
  simp [pcAfter, resolve_len, BitVec.ofNat_add]

theorem readsOperand (m : Mode) (s : State) : ReadsOperand m s := by cases m <;> rfl

@[simp] theorem operand_setFlag (m : Mode) (s : State) (f : Flag) (on : Bool) :
    operand m (s.setFlag f on) = operand m s := by
  cases m <;> rfl

/-- `10_state.md` R33: `SetZN`, with the result read as a number. -/
theorem showsZN_setZN (s : State) (r : Byte) : ShowsZN (s.setZN r).p r := by
  simp [ShowsZN, BitVec.msb_eq_decide, ← BitVec.toNat_inj]

/-- `30_encoding.md` R75: a row of group 1 lists the bytes of one `opClass` by their `sel`. -/
theorem hasOpcode_group1 {i : Instr} {m : Mode} {opClass : Nat} {row : List Byte}
    (hi : encode i = encodeGroup1 opClass m)
    (hrow : ∀ sel < 8, row[sel]? = some (opcodeByte opClass sel 1)) : HasOpcode i row m.sel := by
  rw [HasOpcode, hi, hrow m.sel m.sel_lt, encodeGroup1, List.head?_cons]

/-- What ORA, AND, EOR and LDA leave when `r` is the byte they put in `A`. -/
theorem loadA_result (m : Mode) (r : Byte) (s : State) :
    ∃ q, loadA m r s = .next { s with a := r, p := q, pc := pcAfter m s } ∧
      ShowsZN q r ∧ KeepsFlags s.p q [.z, .n] := by
  refine ⟨(s.setZN r).p, ?_, showsZN_setZN s r, by simp⟩
  rw [loadA_eq, pcAfter_eq]
  rfl

/-- What ADC and SBC leave when `r` is their sum. -/
theorem loadSum_result (m : Mode) (r : SumOut) (s : State) :
    ∃ q, loadSum m r s = .next { s with a := r.value, p := q, pc := pcAfter m s } ∧
      getFlag q .c = r.carry ∧ getFlag q .v = r.overflow ∧
      ShowsZN q r.value ∧ KeepsFlags s.p q [.c, .v, .z, .n] := by
  refine ⟨(((s.setFlag .c r.carry).setFlag .v r.overflow).setZN r.value).p, ?_, by simp, by simp,
    showsZN_setZN _ _, by simp⟩
  rw [loadSum_eq, pcAfter_eq]
  rfl

/-- The bytes and flags after ADC and SBC, for reading off a next state that is given. -/
theorem loadSum_next {m : Mode} {r : SumOut} {s t : State} (h : loadSum m r s = .next t) :
    t.a = r.value ∧ t.flag .c = r.carry ∧ t.flag .v = r.overflow ∧
      t.flag .z = decide (r.value = 0) ∧ t.flag .n = r.value.msb := by
  revert t
  change Yields (loadSum m r s) _
  simp

/-- The flags after CMP, for reading off a next state that is given. -/
theorem execCmp_next {m : Mode} {s t : State} (h : execCmp m s = .next t) :
    t.flag .c = noBorrow s.a (operand m s) ∧
      t.flag .z = decide (difference s.a (operand m s) = 0) ∧
      t.flag .n = (difference s.a (operand m s)).msb := by
  revert t
  change Yields (execCmp m s) _
  simp

/-! ## The add of R124 -/

@[simp] theorem addWithCarry_value_toNat (a m : Byte) (c : Bool) :
    (addWithCarry a m c).value.toNat = (a.toNat + m.toNat + c.toNat) % 256 :=
  BitVec.toNat_ofNat _ _

@[simp] theorem addWithCarry_carry (a m : Byte) (c : Bool) :
    (addWithCarry a m c).carry = decide (a.toNat + m.toNat + c.toNat > 255) := rfl

theorem addWithCarry_overflow (a m : Byte) (c : Bool) :
    (addWithCarry a m c).overflow =
      (a.msb == m.msb && (addWithCarry a m c).value.msb != a.msb) := rfl

/-- Carry and byte are the two digits, base 256, of the sum. -/
theorem addWithCarry_sum (a m : Byte) (c : Bool) :
    256 * (addWithCarry a m c).carry.toNat + (addWithCarry a m c).value.toNat =
      a.toNat + m.toNat + c.toNat := by
  have ha := a.isLt
  have hm := m.isLt
  have hc := c.toNat_lt
  rw [addWithCarry_value_toNat, addWithCarry_carry]
  by_cases h : a.toNat + m.toNat + c.toNat > 255
  · rw [decide_eq_true h, Bool.toNat_true]
    omega
  · rw [decide_eq_false h, Bool.toNat_false]
    omega

/-- `41_group1_alu_load_store.md` R130: two bytes of one sign overflow exactly when the byte of
their sum has the other. -/
theorem addWithCarry_overflow_iff (a m : Byte) (c : Bool) :
    (addWithCarry a m c).overflow = true ↔
      ¬ (-128 ≤ a.toInt + m.toInt + c.toNat ∧ a.toInt + m.toInt + c.toNat ≤ 127) := by
  have ha := a.isLt
  have hm := m.isLt
  have hc := c.toNat_lt
  have hsigns : (addWithCarry a m c).overflow = true ↔
      (128 ≤ a.toNat ↔ 128 ≤ m.toNat) ∧
        ¬ (128 ≤ (a.toNat + m.toNat + c.toNat) % 256 ↔ 128 ≤ a.toNat) := by
    simp [addWithCarry_overflow, BitVec.msb_eq_decide]
  rw [hsigns, BitVec.toInt_eq_toNat_cond, BitVec.toInt_eq_toNat_cond]
  omega

/-! ## The subtract of R128 -/

/-- `41_group1_alu_load_store.md` R128: SBC adds the one's complement of the operand. -/
theorem subWithCarry_eq (a m : Byte) (c : Bool) :
    subWithCarry a m c = addWithCarry a (~~~m) c := by
  rw [subWithCarry, ← BitVec.xor_allOnes]
  rfl

/-- `41_group1_alu_load_store.md` R128: `255 - operand`. -/
theorem complement_toNat (m : Byte) : (~~~m).toNat = 255 - m.toNat := BitVec.toNat_not

theorem complement_toInt (m : Byte) : (~~~m).toInt = -m.toInt - 1 := by
  have hm := m.isLt
  rw [BitVec.toInt_eq_toNat_cond, BitVec.toInt_eq_toNat_cond, complement_toNat]
  omega

/-- `90_conflicts.md` C3: the subtract with the other carry undoes the add. -/
theorem subWithCarry_addWithCarry (a m : Byte) (c : Bool) :
    (subWithCarry (addWithCarry a m c).value m (!c)).value = a := by
  refine BitVec.eq_of_toNat_eq ?_
  have ha := a.isLt
  have hm := m.isLt
  have hc : c.toNat + (!c).toNat = 1 := by cases c <;> rfl
  rw [subWithCarry_eq, addWithCarry_value_toNat, addWithCarry_value_toNat, complement_toNat]
  omega

/-! ## The comparison of R127 -/

theorem difference_eq_sub (a m : Byte) : difference a m = a - m := by
  refine BitVec.eq_of_toNat_eq ?_
  have hm := m.isLt
  rw [difference, BitVec.toNat_ofNat, BitVec.toNat_sub]
  omega

/-- `41_group1_alu_load_store.md` R130: with the carry set SBC computes the difference of CMP. -/
theorem subWithCarry_true_value (a m : Byte) : (subWithCarry a m true).value = difference a m := by
  refine BitVec.eq_of_toNat_eq ?_
  have hm := m.isLt
  rw [subWithCarry_eq, addWithCarry_value_toNat, complement_toNat, difference, BitVec.toNat_ofNat,
    Bool.toNat_true]
  omega

/-- With the carry set SBC carries out exactly when it does not borrow. -/
theorem subWithCarry_true_carry (a m : Byte) : (subWithCarry a m true).carry = noBorrow a m := by
  have hm := m.isLt
  rw [subWithCarry_eq, addWithCarry_carry, complement_toNat, noBorrow, Bool.toNat_true,
    decide_eq_decide]
  omega

/-! ## ADC, SBC, CMP -/

/-- Settles O32: the frame of `loadSum_result`, with the add of R124 as numbers. -/
theorem adcResult : Obligations.AdcResult := by
  intro m s
  obtain ⟨q, hexec, hc, hv, hzn, hkeeps⟩ :=
    loadSum_result m (addWithCarry s.a (operand m s) (s.flag .c)) s
  refine ⟨_, q, hexec, ?_, ?_, hv, hzn, hkeeps, readsOperand m s,
    hasOpcode_group1 (opClass := 3) rfl (by decide)⟩
  · rw [addWithCarry_value_toNat, carryIn_eq]
  · rw [hc, addWithCarry_carry, carryIn_eq]

/-- Settles O33: SBC is the add of the one's complement, whose bits are the operand's inverted. -/
theorem sbcResult : Obligations.SbcResult := by
  intro m s
  obtain ⟨q, hexec, hc, hv, hzn, hkeeps⟩ :=
    loadSum_result m (subWithCarry s.a (operand m s) (s.flag .c)) s
  refine ⟨_, q, hexec, ?_, ?_, ?_, hzn, hkeeps, readsOperand m s,
    hasOpcode_group1 (opClass := 7) rfl (by decide)⟩
  · rw [subWithCarry_eq, addWithCarry_value_toNat, complement_toNat, carryIn_eq]
  · rw [hc, subWithCarry_eq, addWithCarry_carry, complement_toNat, carryIn_eq]
  · rw [hv, subWithCarry_eq, addWithCarry_overflow]
    simp [BitVec.msb_eq_getLsbD_last]

/-- Settles O34: CMP writes its three flags and `PC`; its difference is the 8-bit one. -/
theorem cmpResult : Obligations.CmpResult := by
  intro m s
  refine ⟨((s.setFlag .c (noBorrow s.a (operand m s))).setZN (difference s.a (operand m s))).p,
    ?_, ?_, ?_, by simp, readsOperand m s, hasOpcode_group1 (opClass := 6) rfl (by decide)⟩
  · rw [exec_cmp, execCmp_eq, pcAfter_eq]
    rfl
  · simp [noBorrow]
  · rw [← difference_eq_sub]
    exact showsZN_setZN _ _

/-- Settles O36: `V` is the overflow of the add, for SBC of the add of the one's complement, whose
signed value is `-1 - operand`. -/
theorem overflowIsSignedOverflow : Obligations.OverflowIsSignedOverflow := by
  intro m s t u hadc hsbc
  obtain ⟨-, -, ht, -, -⟩ := loadSum_next hadc
  obtain ⟨-, -, hu, -, -⟩ := loadSum_next hsbc
  rw [ht, hu, subWithCarry_eq, addWithCarry_overflow_iff, addWithCarry_overflow_iff,
    complement_toInt, carryIn_eq]
  exact ⟨Iff.rfl, by omega⟩

/-- Settles O37: the two bytes of `A` are the two sums, and the subtract undoes the add. -/
theorem adcThenSbcRestoresA : Obligations.AdcThenSbcRestoresA := by
  intro v s t u hadc hsbc
  obtain ⟨ht, -⟩ := loadSum_next hadc
  obtain ⟨hu, -⟩ := loadSum_next hsbc
  rw [hu, State.flag_setFlag, if_pos rfl, State.setFlag_a, ht]
  exact subWithCarry_addWithCarry s.a v (s.flag .c)

/-- Settles O38: the digits of the low sum and of the high sum, which takes the low carry in. -/
theorem chainedAdcAddsWords : Obligations.ChainedAdcAddsWords := by
  intro a1 a0 b1 b0 s t u hlow hhigh
  obtain ⟨hta, htc, -⟩ := loadSum_next hlow
  obtain ⟨hua, huc, -⟩ := loadSum_next hhigh
  have low : 256 * (t.flag .c).toNat + t.a.toNat = a0.toNat + b0.toNat := by
    rw [hta, htc, addWithCarry_sum]
    simp [operand]
  have high : 256 * (u.flag .c).toNat + u.a.toNat =
      a1.toNat + b1.toNat + (t.flag .c).toNat := by
    rw [hua, huc, addWithCarry_sum]
    simp [operand]
  rw [carryIn_eq, wordOf_toNat, wordOf_toNat, wordOf_toNat]
  omega

/-- Settles O39: with the carry set the carry and the byte of SBC are those CMP looks at. -/
theorem cmpShowsTheFlagsOfSbc : Obligations.CmpShowsTheFlagsOfSbc := by
  intro m s t u hcmp hsbc
  obtain ⟨htc, htz, htn⟩ := execCmp_next hcmp
  obtain ⟨-, huc, -, huz, hun⟩ := loadSum_next hsbc
  simp only [operand_setFlag, State.setFlag_a, State.flag_setFlag, if_pos, subWithCarry_true_carry,
    subWithCarry_true_value] at huc huz hun
  exact ⟨htc.trans huc.symm, htz.trans huz.symm, htn.trans hun.symm⟩

/-! ## ORA, AND, EOR, LDA, STA -/

/-- Settles O31: the four share the frame of `loadA_result`; the bits of the three logical results
are those of the operation on bytes. -/
theorem logicAndLoadResults : Obligations.LogicAndLoadResults := by
  refine ⟨fun m s => ?ora, fun m s => ?and, fun m s => ?eor, fun m s => ?lda⟩
  case ora =>
    obtain ⟨q, hexec, hzn, hkeeps⟩ := loadA_result m (s.a ||| operand m s) s
    exact ⟨_, q, hexec, fun _ => BitVec.getLsbD_or, hzn, hkeeps, readsOperand m s,
      hasOpcode_group1 (opClass := 0) rfl (by decide)⟩
  case and =>
    obtain ⟨q, hexec, hzn, hkeeps⟩ := loadA_result m (s.a &&& operand m s) s
    exact ⟨_, q, hexec, fun _ => BitVec.getLsbD_and, hzn, hkeeps, readsOperand m s,
      hasOpcode_group1 (opClass := 1) rfl (by decide)⟩
  case eor =>
    obtain ⟨q, hexec, hzn, hkeeps⟩ := loadA_result m (s.a ^^^ operand m s) s
    exact ⟨_, q, hexec, fun _ => BitVec.getLsbD_xor, hzn, hkeeps, readsOperand m s,
      hasOpcode_group1 (opClass := 2) rfl (by decide)⟩
  case lda =>
    obtain ⟨q, hexec, hzn, hkeeps⟩ := loadA_result m (operand m s) s
    exact ⟨q, hexec, hzn, hkeeps, readsOperand m s,
      hasOpcode_group1 (opClass := 5) rfl (by decide)⟩

/-- Settles O35: STA makes the write and moves `PC`; a read after the write is a law of memory.
The byte 0x89 is of the class of illegal modes. -/
theorem staResult : Obligations.StaResult := by
  refine ⟨fun m s hm => ?_, fun lo => decodeFor_one _ 0x89 [lo] .badMode rfl rfl⟩
  refine ⟨_, execSta_eq m s hm, ⟨?_, fun w hw => ?_, rfl, rfl, rfl, rfl, rfl, ?_⟩, rfl,
    hasOpcode_group1 (opClass := 4) rfl (by decide)⟩
  · exact Memory.read_write_same s.mem _ s.a
  · exact Memory.read_write_other s.mem _ s.a w hw
  · exact (pcAfter_eq m s).symm

end Sys2Proof.Machine
end

section
/-! Group 2 (`42_group2_shift_incdec_transfer.md`): the shifts and rotates, DEC and INC, and the
register transfers. What R140 and R141 say of the two forms is said once for each shared operation;
each instruction then adds its result byte as a number, and its row of the opcode map. -/

namespace Sys2Proof.Machine

open Sys2Proof.Spec

/-! ## The two forms of R140 and R141 -/

/-- `30_encoding.md` R76: a row of group 2 lists the bytes of one `opClass` by their `sel`. -/
theorem hasOpcode_group2 {i : Instr} {m : Mode} {opClass : Nat} {row : List Byte}
    (hi : encode i = encodeModify opClass m)
    (hrow : ∀ sel < 8, row[sel]? = some (opcodeByte opClass sel 2)) : HasOpcode i row m.sel := by
  rw [HasOpcode, hi, hrow m.sel m.sel_lt, encodeModify, List.head?_cons]

/-- A write at the effective address, beside any change of `P`, is the only store. -/
theorem storesOnly_write (m : Mode) (r q : Byte) (s : State) :
    StoresOnly s
      (((s.setP q).write (resolve m s).ea r).setPc (s.pc + BitVec.ofNat 16 (resolve m s).len))
      (resolve m s).ea r (pcAfter m s) :=
  ⟨Memory.read_write_same s.mem _ r, fun w hw => Memory.read_write_other s.mem _ r w hw,
    rfl, rfl, rfl, rfl, rfl, (pcAfter_eq m s).symm⟩

/-- What the accumulator form of a shift or rotate leaves. -/
theorem shift_acc_result (op : Byte → Bool → ShiftOut) (s : State) :
    ∃ q, shift op .acc s =
        .next { s with a := (op s.a (s.flag .c)).value, p := q, pc := s.pc + 1 } ∧
      getFlag q .c = (op s.a (s.flag .c)).carry ∧
      ShowsZN q (op s.a (s.flag .c)).value ∧ KeepsFlags s.p q [.c, .z, .n] :=
  ⟨(shiftFlags (op s.a (s.flag .c)) s).p, shift_acc op s, by simp, showsZN_setZN _ _, by simp⟩

/-- What the memory form of a shift or rotate leaves. -/
theorem shift_mem_result (op : Byte → Bool → ShiftOut) {m : Mode} (hm : m.modifiable = true)
    (s : State) :
    ∃ t, shift op (.mem m) s = .next t ∧
      StoresOnly s t (resolve m s).ea (op (s.read (resolve m s).ea) (s.flag .c)).value
        (pcAfter m s) ∧
      t.flag .c = (op (s.read (resolve m s).ea) (s.flag .c)).carry ∧
      ShowsZN t.p (op (s.read (resolve m s).ea) (s.flag .c)).value ∧
      KeepsFlags s.p t.p [.c, .z, .n] := by
  rw [← operand_of_modifiable hm]
  exact ⟨_, shift_mem op m s hm, storesOnly_write m _ _ s, by simp, showsZN_setZN _ _, by simp⟩

/-- `10_state.md` R33: `SetZN` writes its two flags and keeps the others. -/
theorem setZN_flags (s : State) (r : Byte) :
    ShowsZN (s.setZN r).p r ∧ KeepsFlags s.p (s.setZN r).p [.z, .n] :=
  ⟨showsZN_setZN s r, by simp⟩

/-- What DEC and INC leave when `r` is the byte they store. -/
theorem modifyZN_result {m : Mode} (hm : m.modifiable = true) (r : Byte) (s : State) :
    ∃ t, modifyZN m r s = .next t ∧ StoresOnly s t (resolve m s).ea r (pcAfter m s) ∧
      ShowsZN t.p r ∧ KeepsFlags s.p t.p [.z, .n] :=
  ⟨_, modifyZN_eq m r s hm, storesOnly_write m r _ s, setZN_flags s r⟩

/-! ## ASL, ROL, LSR, ROR -/

/-- Settles O40: the two forms of a shift, whose result is that of `shiftLeft`. -/
theorem aslResult : Obligations.AslResult := by
  refine ⟨fun s => ?acc, fun m s hm => ?mem⟩
  case acc =>
    obtain ⟨q, hexec, hc, hzn, hkeeps⟩ := shift_acc_result shiftLeft s
    exact ⟨_, q, hexec, shiftLeft_value_toNat _ _, hc, hzn, hkeeps, rfl⟩
  case mem =>
    obtain ⟨t, hexec, hstores, hc, hzn, hkeeps⟩ := shift_mem_result shiftLeft hm s
    exact ⟨t, _, hexec, hstores, shiftLeft_value_toNat _ _, hc, hzn, hkeeps,
      hasOpcode_group2 (opClass := 0) rfl (by decide)⟩

/-- Settles O41: the two forms of a shift, whose result is that of `rotateLeft` with the old
carry. -/
theorem rolResult : Obligations.RolResult := by
  refine ⟨fun s => ?acc, fun m s hm => ?mem⟩
  case acc =>
    obtain ⟨q, hexec, hc, hzn, hkeeps⟩ := shift_acc_result rotateLeft s
    refine ⟨_, q, hexec, ?_, hc, hzn, hkeeps, rfl⟩
    rw [rotateLeft_value_toNat, carryIn_eq]
  case mem =>
    obtain ⟨t, hexec, hstores, hc, hzn, hkeeps⟩ := shift_mem_result rotateLeft hm s
    refine ⟨t, _, hexec, hstores, ?_, hc, hzn, hkeeps,
      hasOpcode_group2 (opClass := 1) rfl (by decide)⟩
    rw [rotateLeft_value_toNat, carryIn_eq]

/-- `42_group2_shift_incdec_transfer.md` R144: half of a byte is below 128, so `N` is clear. -/
theorem showsZN_shiftRight {q v : Byte} {c : Bool} (h : ShowsZN q (shiftRight v c).value) :
    getFlag q .z = decide ((shiftRight v c).value.toNat = 0) ∧ getFlag q .n = false := by
  obtain ⟨hz, hn⟩ := h
  have hhalf : ¬ 128 ≤ (shiftRight v c).value.toNat := by
    rw [shiftRight_value_toNat]
    omega
  exact ⟨hz, hn.trans (decide_eq_false hhalf)⟩

/-- Settles O42: the two forms of a shift, whose result is that of `shiftRight`. -/
theorem lsrResult : Obligations.LsrResult := by
  refine ⟨fun s => ?acc, fun m s hm => ?mem⟩
  case acc =>
    obtain ⟨q, hexec, hc, hzn, hkeeps⟩ := shift_acc_result shiftRight s
    obtain ⟨hz, hn⟩ := showsZN_shiftRight hzn
    exact ⟨_, q, hexec, shiftRight_value_toNat _ _, hc, hz, hn, hkeeps, rfl⟩
  case mem =>
    obtain ⟨t, hexec, hstores, hc, hzn, hkeeps⟩ := shift_mem_result shiftRight hm s
    obtain ⟨hz, hn⟩ := showsZN_shiftRight hzn
    exact ⟨t, _, hexec, hstores, shiftRight_value_toNat _ _, hc, hz, hn, hkeeps,
      hasOpcode_group2 (opClass := 2) rfl (by decide)⟩

/-- Settles O43: the two forms of a shift, whose result is that of `rotateRight` with the old
carry. -/
theorem rorResult : Obligations.RorResult := by
  refine ⟨fun s => ?acc, fun m s hm => ?mem⟩
  case acc =>
    obtain ⟨q, hexec, hc, hzn, hkeeps⟩ := shift_acc_result rotateRight s
    refine ⟨_, q, hexec, ?_, hc, hzn, hkeeps, rfl⟩
    rw [rotateRight_value_toNat, carryIn_eq]
  case mem =>
    obtain ⟨t, hexec, hstores, hc, hzn, hkeeps⟩ := shift_mem_result rotateRight hm s
    refine ⟨t, _, hexec, hstores, ?_, hc, hzn, hkeeps,
      hasOpcode_group2 (opClass := 3) rfl (by decide)⟩
    rw [rotateRight_value_toNat, carryIn_eq]

/-! ## The nine-bit rotation -/

/-- The carry a rotate left takes in is bit 0 of its result, the bit a rotate right shifts out. -/
theorem rotateLeft_value_getLsbD_zero (v : Byte) (c : Bool) :
    (rotateLeft v c).value.getLsbD 0 = c := by
  cases c <;> simp [rotateLeft]

/-- A rotate right takes back the bit a rotate left shifted out. -/
theorem rotateRight_rotateLeft_value (v : Byte) (c : Bool) :
    (rotateRight (rotateLeft v c).value (rotateLeft v c).carry).value = v := by
  have hc := c.toNat_lt
  have hcarry : (rotateLeft v c).carry = decide (128 ≤ v.toNat) := by
    rw [rotateLeft, ← BitVec.msb_eq_getLsbD_last, BitVec.msb_eq_decide]
  refine BitVec.eq_of_toNat_eq ?_
  rw [rotateRight_value_toNat, rotateLeft_value_toNat, hcarry]
  by_cases h : 128 ≤ v.toNat
  · rw [decide_eq_true h, Bool.toNat_true]
    omega
  · rw [decide_eq_false h, Bool.toNat_false]
    omega

/-- `A` and `C` after the accumulator form, for reading off a next state that is given. -/
theorem shift_acc_next {op : Byte → Bool → ShiftOut} {s t : State}
    (h : shift op .acc s = .next t) :
    t.a = (op s.a (s.flag .c)).value ∧ t.flag .c = (op s.a (s.flag .c)).carry := by
  revert t
  change Yields (shift op .acc s) _
  simp

/-- Settles O45: `A` and `C` after each rotate are its result and the bit it shifts out. -/
theorem rorUndoesRol : Obligations.RorUndoesRol := by
  intro s t u hrol hror
  obtain ⟨hta, htc⟩ := shift_acc_next hrol
  obtain ⟨hua, huc⟩ := shift_acc_next hror
  rw [hua, huc, hta, htc]
  exact ⟨rotateRight_rotateLeft_value _ _, rotateLeft_value_getLsbD_zero _ _⟩

/-! ## DEC, INC -/

/-- Settles O44: the frame of `modifyZN_result`, with the two results as numbers. -/
theorem decAndIncResults : Obligations.DecAndIncResults := by
  intro m s hm
  refine ⟨?dec, ?inc⟩
  case dec =>
    obtain ⟨t, hexec, hstores, hzn, hkeeps⟩ := modifyZN_result hm (decrement (operand m s)) s
    refine ⟨t, _, hexec, hstores, ?_, hzn, hkeeps,
      hasOpcode_group2 (opClass := 6) rfl (by decide)⟩
    rw [decrement_toNat, operand_of_modifiable hm]
  case inc =>
    obtain ⟨t, hexec, hstores, hzn, hkeeps⟩ := modifyZN_result hm (increment (operand m s)) s
    refine ⟨t, _, hexec, hstores, ?_, hzn, hkeeps,
      hasOpcode_group2 (opClass := 7) rfl (by decide)⟩
    rw [increment_toNat, operand_of_modifiable hm]

/-! ## The transfers -/

/-- Settles O46: each transfer is its register write with `SetZN`, and TXS without. -/
theorem transferResults : Obligations.TransferResults := fun s =>
  ⟨⟨_, exec_tax s, setZN_flags s s.a⟩, ⟨_, exec_tay s, setZN_flags s s.a⟩,
    ⟨_, exec_txa s, setZN_flags s s.x⟩, ⟨_, exec_tya s, setZN_flags s s.y⟩,
    ⟨_, exec_tsx s, setZN_flags s s.sp⟩, exec_txs s, rfl, rfl, rfl, rfl, rfl, rfl⟩

end Sys2Proof.Machine
end

section
/-! Group 0 (`43_group0_branch_flag_bit.md`). The eight branches are one: each has a condition, and
all of them go to the same signed sum. A flag operation is one mask on `P`, and BIT is its three
flags. -/

namespace Sys2Proof.Machine

open Sys2Proof.Spec

/-! ## The branches -/

/-- R171 as a sum of words: the sign-extended offset adds the signed number. -/
theorem add_signExtend_toNat (pc : Word) (off : Byte) :
    ((pc + 2 + off.signExtend 16).toNat : Int) = targetNumber pc off := by
  rw [targetNumber, BitVec.signExtend, BitVec.toNat_add, BitVec.toNat_add, BitVec.toNat_ofInt,
    show (2 : Word).toNat = 2 from rfl]
  omega

/-- Settles O48: the target and the sum of words are the same number. -/
theorem branchTargetIsSignedAddition : Obligations.BranchTargetIsSignedAddition := by
  intro s off
  refine ⟨branchTarget_toNat s off, BitVec.eq_of_toNat_eq (Int.ofNat_inj.1 ?_)⟩
  exact (branchTarget_toNat s off).trans (add_signExtend_toNat s.pc off).symm

/-- A branch on a set flag. -/
theorem branch_of_set (f : Flag) (off : Byte) (s : State) :
    branch (s.flag f) off s = .next
      { s with pc := if s.p.getLsbD f.index = true then branchTarget s off else s.pc + 2 } := rfl

/-- A branch on a clear flag. -/
theorem branch_of_clear (f : Flag) (off : Byte) (s : State) :
    branch (!s.flag f) off s = .next
      { s with pc := if s.p.getLsbD f.index = false then branchTarget s off else s.pc + 2 } := by
  simp only [branch_eq, Bool.not_eq_true']
  rfl

/-- Settles O47: each branch tests one flag, set or clear. -/
theorem branchResults : Obligations.BranchResults := fun off s =>
  ⟨branch_of_clear .n off s, branch_of_set .n off s, branch_of_clear .v off s,
    branch_of_set .v off s, branch_of_clear .c off s, branch_of_set .c off s,
    branch_of_clear .z off s, branch_of_set .z off s, rfl, rfl, rfl, rfl, rfl, rfl, rfl, rfl⟩

/-! ## A branch to itself -/

/-- The condition of each branch (R172 to R179). -/
def branchHolds (s : State) : RelOp → Bool
  | .bpl => !s.flag .n
  | .bmi => s.flag .n
  | .bvc => !s.flag .v
  | .bvs => s.flag .v
  | .bcc => !s.flag .c
  | .bcs => s.flag .c
  | .bne => !s.flag .z
  | .beq => s.flag .z

theorem exec_relOp (op : RelOp) (off : Byte) (s : State) :
    exec (op.instr off) s = branch (branchHolds s op) off s := by
  cases op <;> rfl

/-- Offset -2 takes back the two bytes of the branch. -/
theorem branchTarget_minus_two (s : State) : branchTarget s 0xFE = s.pc := by
  obtain ⟨-, hsum⟩ := branchTargetIsSignedAddition s 0xFE
  have hback : (2 : Word) + (0xFE : Byte).signExtend 16 = 0 := by decide
  rw [hsum, BitVec.add_assoc, hback]
  exact BitVec.add_zero s.pc

/-- A byte of a branch is fetched as that branch, whatever the halt opcode. -/
theorem fetchInstr_relOp (halt : Option Byte) {s : State} {op : RelOp}
    (h : classifyAssigned (s.read s.pc) = .rel op) :
    fetchInstr halt s = op.instr (s.read (s.pc + 1)) := by
  rw [fetchInstr, decodeBytes, classify_of_assigned halt _ (by simp [h]) (by simp [h]), h,
    OpcodeClass.instr]

/-- The step on a taken branch with offset -2 gives back the state. -/
theorem stepWith_branch_to_itself (params : Params) {s : State} {op : RelOp}
    (hs : s.halted = false) (hoff : s.read (s.pc + 1) = 0xFE)
    (hop : classifyAssigned (s.read s.pc) = .rel op) (hholds : branchHolds s op = true) :
    stepWith params s = .next s := by
  rw [stepWith_running params s hs, fetchInstr_relOp _ hop, hoff, exec_relOp, hholds, branch_eq,
    if_pos rfl, branchTarget_minus_two]
  rfl

/-- A running state that a step gives back never leaves a run. -/
theorem runFor_of_step_self {params : Params} {s : State} (hs : s.halted = false)
    (hstep : stepWith params s = .next s) (n : Nat) : runFor params n s = .budget s := by
  induction n with
  | zero => rfl
  | succ n ih => simp [runFor, hstep, hs, ih]

/-- Settles O58: each listed pair is the byte of a branch with its condition, and its step gives
back the state. -/
theorem branchToItselfNeverEnds : Obligations.BranchToItselfNeverEnds := by
  intro params s hs hoff b hb
  obtain ⟨op, hop, hholds⟩ : ∃ op, classifyAssigned b.1 = .rel op ∧ branchHolds s op = b.2 := by
    revert b
    simp only [List.forall_mem_cons]
    exact ⟨⟨.bpl, rfl, rfl⟩, ⟨.bmi, rfl, rfl⟩, ⟨.bvc, rfl, rfl⟩, ⟨.bvs, rfl, rfl⟩,
      ⟨.bcc, rfl, rfl⟩, ⟨.bcs, rfl, rfl⟩, ⟨.bne, rfl, rfl⟩, ⟨.beq, rfl, rfl⟩, by simp⟩
  intro hbyte hcond
  rw [← hbyte] at hop
  exact runFor_of_step_self hs (stepWith_branch_to_itself params hs hoff hop (hholds.trans hcond))

/-! ## The flag operations -/

/-- Clearing a flag is a mask on `P`. -/
theorem flagOp_clear {f : Flag} {mask : Byte} (h : ~~~f.mask = mask) (s : State) :
    flagOp f false s = .next { s with p := s.p &&& mask, pc := s.pc + 1 } := by
  subst h
  rfl

/-- Setting a flag is a mask on `P`. -/
theorem flagOp_set {f : Flag} {mask : Byte} (h : f.mask = mask) (s : State) :
    flagOp f true s = .next { s with p := s.p ||| mask, pc := s.pc + 1 } := by
  subst h
  rfl

/-- Settles O49: each flag operation is the mask of its flag. -/
theorem flagOperationResults : Obligations.FlagOperationResults := fun s =>
  ⟨flagOp_clear (f := .c) rfl s, flagOp_set (f := .c) rfl s, flagOp_clear (f := .i) rfl s,
    flagOp_set (f := .i) rfl s, flagOp_clear (f := .v) rfl s, flagOp_clear (f := .d) rfl s,
    flagOp_set (f := .d) rfl s, rfl, rfl, rfl, rfl, rfl, rfl, rfl⟩

/-! ## BIT -/

/-- A mode of BIT reads its operand from memory. -/
theorem operand_of_bitTestable {m : Mode} (h : m.bitTestable = true) (s : State) :
    operand m s = s.read (resolve m s).ea :=
  operand_of_not_imm m s (by rintro v rfl; simp [Mode.bitTestable] at h)

/-- Two bytes have no bit in common exactly when their AND is 0. -/
theorem and_eq_zero_iff (a b : Byte) :
    a &&& b = 0 ↔ ∀ k, ¬ (a.getLsbD k = true ∧ b.getLsbD k = true) := by
  constructor
  · intro h k hk
    have hbit : (a &&& b).getLsbD k = true := by simp [hk]
    simp [h] at hbit
  · intro h
    refine BitVec.eq_of_getLsbD_eq fun k _ => ?_
    simpa using h k

/-- `30_encoding.md` R79: BIT is `opClass` 1 of group 0, in its two modes. -/
theorem hasOpcode_bit {m : Mode} (h : m.bitTestable = true) :
    HasOpcode (.bit m) [0x20, 0x24, 0x28, 0x2C] m.sel := by
  cases m with
  | zp | abs => simp [HasOpcode, encode, encodeFor, opcodeByte]
  | indX | imm | indY | zpX | absY | absX => simp [Mode.bitTestable] at h

/-- Settles O50: the three flags of `execBit_eq`, with `Z` read bit by bit. -/
theorem bitResult : Obligations.BitResult := by
  intro m s hm
  rw [← operand_of_bitTestable hm, pcAfter_eq]
  refine ⟨_, execBit_eq m s hm, by simp, by simp, ?_, by simp, hasOpcode_bit hm⟩
  rw [← and_eq_zero_iff]
  simp

end Sys2Proof.Machine
end

section
/-! The step engine (`44_step_engine_and_halt.md`): what a step runs, that it answers a next state
or an error and nothing else, what a call returns, and that the end of a run is final. -/

namespace Sys2Proof.Machine

open Sys2Proof.Spec

/-! ## What a step runs -/

/-- `30_encoding.md` R74: of three bytes the decoder reads the instruction that `decodeBytes` makes
of them, and leaves those the opcode's class does not take. -/
theorem decodeFor_three_bytes (halt : Option Byte) (op lo hi : Byte) :
    decodeFor halt [op, lo, hi] =
      .ok (decodeBytes halt op lo hi, [lo, hi].drop ((classify halt op).length - 1)) := by
  rw [← decodeFor_operands, OpcodeClass.operands, List.take_append_drop]

/-- Settles O6: the three bytes decode to the fetched instruction, which the step runs. -/
theorem stepRunsTheDecodedInstruction : Obligations.StepRunsTheDecodedInstruction := by
  refine ⟨fun params s i rest hs hdecode => ?_, fun s => rfl⟩
  rw [decodeFor_three_bytes] at hdecode
  cases hdecode
  exact stepWith_running params s hs

/-- Settles O51: HLT is one register write and the commit of one byte. -/
theorem hltResult : Obligations.HltResult := fun s => exec_hlt s

/-! ## How a step ends -/

/-- Settles O11, by the case split of `exec_completes`: the shared operations complete in every mode
the instruction has. -/
theorem wellFormedInstructionsComplete : Obligations.WellFormedInstructionsComplete :=
  fun _ _ s h hop hmode => exec_completes h hop hmode s

/-- A well-formed instruction completes or raises an error, the illegal bytes alone the latter. -/
theorem exec_next_or_fault {halt : Option Byte} {i : Instr} (h : i.wfFor halt = true)
    (s : State) : (∃ t, exec i s = .next t) ∨ ∃ kind, exec i s = .fault kind := by
  cases i with
  | illegalOpcode b => exact .inr ⟨_, exec_illegalOpcode b s⟩
  | illegalMode b => exact .inr ⟨_, exec_illegalMode b s⟩
  | _ => exact .inl (exec_completes h nofun nofun s)

theorem stepWith_next_or_fault (params : Params) (s : State) :
    (∃ t, stepWith params s = .next t) ∨ ∃ kind, stepWith params s = .fault kind := by
  cases hs : s.halted with
  | true => exact .inr ⟨_, stepWith_halted params s hs⟩
  | false =>
    rw [stepWith_running params s hs]
    exact exec_next_or_fault (wfFor_fetchInstr _ s) s

/-- `44_step_engine_and_halt.md` R205: a step completes on the bytes that are fetched as neither
illegal instruction. -/
theorem stepWith_completes {params : Params} {s : State} (hs : s.halted = false)
    (hbyte : isUnassigned (s.read s.pc) = false ∨ params.haltOpcode = some (s.read s.pc)) :
    ∃ t, stepWith params s = .next t := by
  have hop : ∀ b, fetchInstr params.haltOpcode s ≠ .illegalOpcode b := fun b hb => by
    obtain ⟨hbad, hhalt⟩ := (fetchInstr_eq_illegalOpcode_iff _ s).1 ⟨b, hb⟩
    simp [isUnassigned, hbad, hhalt] at hbyte
  have hmode : ∀ b, fetchInstr params.haltOpcode s ≠ .illegalMode b := fun b hb => by
    obtain ⟨hbad, hhalt⟩ := (fetchInstr_eq_illegalMode_iff _ s).1 ⟨b, hb⟩
    simp [isUnassigned, hbad, hhalt] at hbyte
  rw [stepWith_running params s hs]
  exact exec_completes (wfFor_fetchInstr _ s) hop hmode s

/-- Settles O10: completion is `stepWith_completes`, and a step that completes or raises an error
is not refused. -/
theorem stepCompletesOnAssignedBytes : Obligations.StepCompletesOnAssignedBytes := by
  refine fun params s => ⟨stepWith_completes, fun reason hrefused => ?_⟩
  obtain ⟨t, h⟩ | ⟨kind, h⟩ := stepWith_next_or_fault params s
  · cases h.symm.trans hrefused
  · cases h.symm.trans hrefused

/-! ## What a call returns -/

theorem resolve_extra_le (m : Mode) (s : State) : (resolve m s).extra ≤ 1 := by
  cases m with
  | indY | absY | absX =>
    rw [resolve, indexed_extra]
    split <;> decide
  | indX | zp | imm | abs | zpX => exact Nat.zero_le 1

theorem baseCycles_bounds (m : Mode) : 2 ≤ baseCycles m ∧ baseCycles m ≤ 6 := by
  cases m <;> simp [baseCycles]

theorem readCycles_bounds (m : Mode) (s : State) :
    2 ≤ readCycles m s ∧ readCycles m s ≤ 7 := by
  have hbase := baseCycles_bounds m
  have hextra := resolve_extra_le m s
  rw [readCycles]
  omega

theorem storeCycles_bounds (m : Mode) : 2 ≤ storeCycles m ∧ storeCycles m ≤ 7 := by
  cases m <;> simp [storeCycles, baseCycles]

theorem modifyCycles_bounds {m : Mode} (h : m.modifiable = true) :
    2 ≤ modifyCycles m ∧ modifyCycles m ≤ 7 := by
  cases m with
  | zp | abs | zpX | absX => simp [modifyCycles, baseCycles]
  | indX | imm | indY | absY => simp [Mode.modifiable] at h

theorem shiftCycles_bounds {o : ShiftOperand} (h : o.supported = true) :
    2 ≤ shiftCycles o ∧ shiftCycles o ≤ 7 := by
  cases o with
  | acc => decide
  | mem m => exact modifyCycles_bounds h

theorem branchCycles_bounds (cond : Bool) (off : Byte) (s : State) :
    2 ≤ branchCycles cond off s ∧ branchCycles cond off s ≤ 7 := by
  unfold branchCycles
  split
  · split <;> decide
  · decide

/-- `70_reset_and_hazards.md` R262: the counts of the instructions that complete, but HLT. -/
theorem instrCycles_bounds {halt : Option Byte} {i : Instr} (h : i.wfFor halt = true)
    (hhlt : i ≠ .hlt) {s t : State} (hexec : exec i s = .next t) (haltCycles : Nat) :
    2 ≤ instrCycles haltCycles i s ∧ instrCycles haltCycles i s ≤ 7 := by
  cases i with
  | ora m | and m | eor m | adc m | lda m | cmp m | sbc m | bit m => exact readCycles_bounds m s
  | sta m => exact storeCycles_bounds m
  | asl o | rol o | lsr o | ror o => exact shiftCycles_bounds h
  | dec m | inc m => exact modifyCycles_bounds h
  | bpl | bmi | bvc | bvs | bcc | bcs | bne | beq => exact branchCycles_bounds _ _ s
  | tax | tay | txa | tya | tsx | txs | clc | sec | cli | sei | clv | cld | sed =>
    simp [instrCycles]
  | hlt => exact absurd rfl hhlt
  | illegalOpcode | illegalMode => simp at hexec

theorem call_of_next {params : Params} {s t : State} (h : stepWith params s = .next t) :
    call params s =
      (t, .ok (instrCycles params.haltCycles (fetchInstr params.haltOpcode s) s)) := by
  simp [call, h]

theorem call_of_fault {params : Params} {s : State} {kind : Fault}
    (h : stepWith params s = .fault kind) : call params s = (s, .err kind) := by
  simp [call, h]

/-- Settles O14: a step completes or raises an error, and the fetched instruction, being
well-formed, has a count in the bounds. -/
theorem callReturnsOkOrAnErrorWithTheStateUnchanged :
    Obligations.CallReturnsOkOrAnErrorWithTheStateUnchanged := by
  intro params s
  obtain ⟨t, h⟩ | ⟨kind, h⟩ := stepWith_next_or_fault params s
  · rw [call_of_next h]
    refine ⟨h, rfl, ?_⟩
    split
    next hhlt =>
      rw [hhlt]
      rfl
    next hhlt =>
      obtain ⟨-, hexec⟩ := (stepWith_eq_next_iff params s t).1 h
      exact instrCycles_bounds (wfFor_fetchInstr _ s) hhlt hexec _
  · rw [call_of_fault h]
    exact ⟨h, rfl⟩

/-! ## The end of a run -/

/-- A run of at least one step ends normally in `t` when its first step halts in `t`, or when the
rest of the run does. -/
theorem runFor_succ_eq_halted_iff (params : Params) (n : Nat) (s t : State) :
    runFor params (n + 1) s = .halted t ↔
      ∃ u, stepWith params s = .next u ∧
        if u.halted then u = t else runFor params n u = .halted t := by
  rw [runFor]
  cases h : stepWith params s with
  | next u => cases hu : u.halted <;> simp [hu]
  | fault | refused => simp

/-- A run that ends normally does so with every larger budget, and its last state is halted. -/
theorem runFor_halted_stable {params : Params} {n : Nat} {s t : State}
    (h : runFor params n s = .halted t) (k : Nat) :
    runFor params (n + k) s = .halted t ∧ t.halted = true := by
  induction n generalizing s with
  | zero => cases h
  | succ n ih =>
    obtain ⟨u, hstep, hrest⟩ := (runFor_succ_eq_halted_iff params n s t).1 h
    rw [Nat.add_right_comm, runFor_succ_eq_halted_iff]
    cases hu : u.halted with
    | true =>
      obtain rfl : u = t := by simpa [hu] using hrest
      exact ⟨⟨u, hstep, by simp [hu]⟩, hu⟩
    | false =>
      obtain ⟨hlonger, ht⟩ := ih (by simpa [hu] using hrest)
      exact ⟨⟨u, hstep, by simpa [hu] using hlonger⟩, ht⟩

/-- Settles O57: the last state is halted, and a step from it raises the error. -/
theorem normalEndOfARunIsFinal : Obligations.NormalEndOfARunIsFinal := by
  intro params n k s t h
  obtain ⟨hlonger, ht⟩ := runFor_halted_stable h k
  exact ⟨hlonger, stepWith_halted params t ht⟩

end Sys2Proof.Machine
end

section
/-! The accesses of a step (`44_step_engine_and_halt.md` R210). They are reads and then the store of
the instruction. An instruction sees no byte of memory but those it reads: on every memory that
agrees on them its effective address and its operand are the same. -/

namespace Sys2Proof.Machine

open Sys2Proof.Spec

/-! ## The table of R210 -/

/-- `10_state.md` R28: an address in the instruction stream, as a number and as a word. -/
theorem ofNat_pc_add (s : State) (n : Nat) :
    BitVec.ofNat 16 ((s.pc.toNat + n) % 65536) = s.pc + BitVec.ofNat 16 n :=
  BitVec.eq_of_toNat_eq (by simp)

/-- The table gives the addresses as numbers, the resolver as words. -/
theorem readsBeforeOperand_eq (m : Mode) (s : State) :
    readsBeforeOperand m s = resolverReads m s := by
  have hzero : ∀ b : Byte, BitVec.ofNat 16 (b.toNat % 256) = zext b := fun b => by
    rw [zext_eq_ofNat, Nat.mod_eq_of_lt b.isLt]
  cases m <;> simp [readsBeforeOperand, resolverReads, pointerReads, ofNat_pc_add, ← hzero]

/-- `42_group2_shift_incdec_transfer.md` R141: one read, then the write of the instruction's
store. -/
theorem modifyAccesses_eq {i : Instr} {m : Mode} {s : State} {r : Byte}
    (hw : storeAddress i s = some (resolve m s).ea) (hv : storedByte i s = some r) :
    modifyAccesses m r s =
      readsBeforeOperand m s ++ [.read (resolve m s).ea] ++ storeOf i s := by
  rw [storeOf_of_some hw hv, readsBeforeOperand_eq, modifyAccesses, List.append_assoc]
  rfl

/-- The accesses of a well-formed instruction are those of the table. -/
theorem instrAccesses_eq {halt : Option Byte} {i : Instr} (h : i.wfFor halt = true) (s : State) :
    instrAccesses i s = accessesAfterOpcode i s := by
  cases i with
  | ora m | and m | eor m | adc m | lda m | cmp m | sbc m | bit m =>
    exact congrArg (· ++ [.read (resolve m s).ea]) (readsBeforeOperand_eq m s).symm
  | sta m => exact congrArg (· ++ [.write (resolve m s).ea s.a]) (readsBeforeOperand_eq m s).symm
  | asl o | rol o | lsr o | ror o =>
    cases o with
    | acc => rfl
    | mem m =>
      refine modifyAccesses_eq rfl ?_
      rw [operand_of_modifiable (m := m) h]
      simp only [storedByte_asl, storedByte_rol, storedByte_lsr, storedByte_ror]
  | dec m | inc m =>
    refine modifyAccesses_eq rfl ?_
    rw [operand_of_modifiable h]
    simp only [storedByte_dec, storedByte_inc]
  | bpl | bmi | bvc | bvs | bcc | bcs | bne | beq =>
    exact congrArg (fun w => [Access.read w]) (ofNat_pc_add s 1).symm
  | _ => rfl

theorem stepAccesses_running (params : Params) {s : State} (hs : s.halted = false) :
    stepAccesses params s =
      .read s.pc :: accessesAfterOpcode (fetchInstr params.haltOpcode s) s := by
  simp [stepAccesses, hs, instrAccesses_eq (wfFor_fetchInstr params.haltOpcode s)]

/-! ## Reads and then the store -/

/-- None of these accesses is a write. -/
def OnlyReads (accesses : List Access) : Prop := ∀ w v, Access.write w v ∉ accesses

theorem onlyReads_resolverReads (m : Mode) (s : State) : OnlyReads (resolverReads m s) := by
  intro w v
  cases m <;> simp [resolverReads, pointerReads]

/-- The table as reads and then the store, if the instruction makes one. -/
theorem accessesAfterOpcode_split (i : Instr) (s : State) :
    ∃ reads, OnlyReads reads ∧ accessesAfterOpcode i s = reads ++ storeOf i s := by
  have hreads : ∀ m, OnlyReads (readsBeforeOperand m s) := fun m =>
    readsBeforeOperand_eq m s ▸ onlyReads_resolverReads m s
  have hoperand : ∀ m, OnlyReads (readsBeforeOperand m s ++ [.read (resolve m s).ea]) :=
    fun m w v => by simp [hreads m w v]
  cases i with
  | ora m | and m | eor m | adc m | lda m | cmp m | sbc m | bit m =>
    exact ⟨_, hoperand m, (List.append_nil _).symm⟩
  | sta m => exact ⟨_, hreads m, rfl⟩
  | asl o | rol o | lsr o | ror o =>
    cases o with
    | acc => exact ⟨[], nofun, rfl⟩
    | mem m => exact ⟨_, hoperand m, rfl⟩
  | dec m | inc m => exact ⟨_, hoperand m, rfl⟩
  | bpl | bmi | bvc | bvs | bcc | bcs | bne | beq =>
    exact ⟨[.read _], fun w v => by simp, (List.append_nil _).symm⟩
  | _ => exact ⟨[], nofun, rfl⟩

theorem stepAccesses_split (params : Params) {s : State} (hs : s.halted = false) :
    ∃ reads, OnlyReads reads ∧
      stepAccesses params s = reads ++ storeOf (fetchInstr params.haltOpcode s) s := by
  obtain ⟨reads, hreads, hsplit⟩ := accessesAfterOpcode_split (fetchInstr params.haltOpcode s) s
  refine ⟨.read s.pc :: reads, fun w v => ?_, ?_⟩
  · simp [hreads w v]
  · rw [stepAccesses_running params hs, hsplit, List.cons_append]

theorem storeOf_eq_nil_or_singleton (i : Instr) (s : State) :
    storeOf i s = [] ∨ ∃ access, storeOf i s = [access] := by
  unfold storeOf
  split
  · exact .inr ⟨_, rfl⟩
  · exact .inl rfl

/-- Only the last access of a step can be a write. -/
theorem onlyReads_dropLast_stepAccesses (params : Params) (s : State) :
    OnlyReads (stepAccesses params s).dropLast := by
  cases hs : s.halted with
  | true => simp [stepAccesses, hs, OnlyReads]
  | false =>
    obtain ⟨reads, hreads, hsplit⟩ := stepAccesses_split params hs
    obtain hstore | ⟨access, hstore⟩ :=
      storeOf_eq_nil_or_singleton (fetchInstr params.haltOpcode s) s
    · rw [hsplit, hstore, List.append_nil]
      exact fun w v hwrite => hreads w v (List.dropLast_subset _ hwrite)
    · rw [hsplit, hstore, List.dropLast_concat]
      exact hreads

theorem replayWrites_append {reads : List Access} (h : OnlyReads reads) (m : Memory)
    (rest : List Access) : replayWrites m (reads ++ rest) = replayWrites m rest := by
  induction reads with
  | nil => rfl
  | cons access reads ih =>
    cases access with
    | read w => exact ih fun w v hwrite => h w v (List.mem_cons_of_mem _ hwrite)
    | write w v => exact absurd List.mem_cons_self (h w v)

theorem replayWrites_stepAccesses (params : Params) {s : State} (hs : s.halted = false)
    (m : Memory) :
    replayWrites m (stepAccesses params s) =
      replayWrites m (storeOf (fetchInstr params.haltOpcode s) s) := by
  obtain ⟨reads, hreads, hsplit⟩ := stepAccesses_split params hs
  rw [hsplit, replayWrites_append hreads]

/-- Settles O29: the fetched instruction is well-formed, so its accesses are those of the table;
they are reads and then its store, and its store is what it does to memory. -/
theorem memoryIsTheReplayOfTheAccesses : Obligations.MemoryIsTheReplayOfTheAccesses := by
  refine ⟨fun params s => ?_, onlyReads_dropLast_stepAccesses, fun params s t h => ?_⟩
  · cases hs : s.halted with
    | true => simp [stepAccesses, hs]
    | false => simp [stepAccesses_running params hs]
  · obtain ⟨hs, hexec⟩ := (stepWith_eq_next_iff params s t).1 h
    rw [replayWrites_stepAccesses params hs, exec_mem _ s t hexec]

/-! ## Another memory that agrees on the bytes read -/

/-- `μ` has the bytes of `s` at the addresses that `accesses` read. -/
def Agrees (μ : Memory) (s : State) (accesses : List Access) : Prop :=
  ∀ w, Reads accesses w → μ.read w = s.read w

section
variable {μ : Memory} {s : State}

@[simp] theorem agrees_nil : Agrees μ s [] := fun _ h => nomatch h

@[simp] theorem agrees_read_cons (w : Word) (rest : List Access) :
    Agrees μ s (.read w :: rest) ↔ μ.read w = s.read w ∧ Agrees μ s rest := by
  simp [Agrees, Reads]

@[simp] theorem agrees_write_cons (w : Word) (v : Byte) (rest : List Access) :
    Agrees μ s (.write w v :: rest) ↔ Agrees μ s rest := by
  simp [Agrees, Reads]

@[simp] theorem agrees_append (accesses rest : List Access) :
    Agrees μ s (accesses ++ rest) ↔ Agrees μ s accesses ∧ Agrees μ s rest := by
  simp [Agrees, Reads, or_imp, forall_and]

end

/-- The state with the memory `μ`. -/
def State.setMem (s : State) (μ : Memory) : State := { s with mem := μ }

section
variable (s : State) (μ : Memory)

@[simp] theorem State.setMem_a : (s.setMem μ).a = s.a := rfl
@[simp] theorem State.setMem_x : (s.setMem μ).x = s.x := rfl
@[simp] theorem State.setMem_y : (s.setMem μ).y = s.y := rfl
@[simp] theorem State.setMem_pc : (s.setMem μ).pc = s.pc := rfl
@[simp] theorem State.setMem_halted : (s.setMem μ).halted = s.halted := rfl
@[simp] theorem State.setMem_flag (f : Flag) : (s.setMem μ).flag f = s.flag f := rfl
@[simp] theorem State.setMem_read (w : Word) : (s.setMem μ).read w = μ.read w := rfl
@[simp] theorem State.setMem_setA (v : Byte) : (s.setMem μ).setA v = (s.setA v).setMem μ := rfl
@[simp] theorem State.setMem_setPc (v : Word) : (s.setMem μ).setPc v = (s.setPc v).setMem μ := rfl
@[simp] theorem State.setMem_setFlag (f : Flag) (on : Bool) :
    (s.setMem μ).setFlag f on = (s.setFlag f on).setMem μ := rfl
@[simp] theorem State.setMem_setZN (r : Byte) : (s.setMem μ).setZN r = (s.setZN r).setMem μ := rfl
@[simp] theorem State.setMem_write (w : Word) (v : Byte) :
    (s.setMem μ).write w v = s.setMem (μ.write w v) := rfl
/-- The other memory takes the place of what a store left. -/
@[simp] theorem State.write_setPc_setMem (w : Word) (v : Byte) (pc : Word) :
    ((s.write w v).setPc pc).setMem μ = (s.setPc pc).setMem μ := rfl

end

section
variable {m : Mode} {s : State} {μ : Memory}

theorem zpPointer_setMem {ptr : Byte} (h : Agrees μ s (pointerReads ptr)) :
    zpPointer (s.setMem μ) ptr = zpPointer s ptr := by
  obtain ⟨hlo, hhi, -⟩ : _ ∧ _ ∧ _ := by simpa only [pointerReads, agrees_read_cons] using h
  rw [zpPointer, State.setMem_read, State.setMem_read, hlo, hhi, zpPointer]

/-- `40_address_resolver.md` R113: the resolver uses no byte but the pointer bytes it reads. -/
theorem resolve_setMem (h : Agrees μ s (resolverReads m s)) :
    resolve m (s.setMem μ) = resolve m s := by
  obtain ⟨-, hptr⟩ := (agrees_append _ _).1 h
  cases m with
  | indX lo | indY lo => simp [resolve, zpPointer_setMem hptr]
  | _ => rfl

theorem operand_setMem (h : Agrees μ s (readAccesses m s)) :
    operand m (s.setMem μ) = operand m s := by
  obtain ⟨hresolver, hea⟩ : Agrees μ s (resolverReads m s) ∧
      μ.read (resolve m s).ea = s.read (resolve m s).ea := by simpa [readAccesses] using h
  have hread : μ.read (resolve m (s.setMem μ)).ea = s.read (resolve m s).ea := by
    rw [resolve_setMem hresolver, hea]
  cases m with
  | imm v => rfl
  | _ => exact hread

/-- What an instruction that reads its operand computes with. -/
theorem reads_setMem (h : Agrees μ s (readAccesses m s)) :
    resolve m (s.setMem μ) = resolve m s ∧ operand m (s.setMem μ) = operand m s :=
  ⟨resolve_setMem ((agrees_append _ _).1 h).1, operand_setMem h⟩

theorem agrees_modifyAccesses (r : Byte) :
    Agrees μ s (modifyAccesses m r s) ↔ Agrees μ s (readAccesses m s) := by
  simp [modifyAccesses, readAccesses]

end

/-- An instruction on a memory that agrees on the bytes it reads: the same next state but for
memory, and the same store. -/
theorem exec_setMem {halt : Option Byte} {i : Instr} (hwf : i.wfFor halt = true) {s : State}
    {μ : Memory} (h : Agrees μ s (instrAccesses i s)) :
    exec i (s.setMem μ) =
      mapNext (State.setMem · (replayWrites μ (storeOf i s))) (exec i s) := by
  cases i with
  | ora m | and m | eor m | adc m | lda m | cmp m | sbc m =>
    obtain ⟨hres, hop⟩ := reads_setMem h
    simp [loadA_eq, loadSum_eq, execCmp_eq, hres, hop, storeOf, storeAddress, replayWrites]
  | bit m =>
    obtain ⟨hres, hop⟩ := reads_setMem h
    have hm : m.bitTestable = true := hwf
    simp [execBit_eq, hm, hres, hop, storeOf, storeAddress, replayWrites]
  | sta m =>
    have hres : resolve m (s.setMem μ) = resolve m s :=
      resolve_setMem ((agrees_append _ _).1 h).1
    have hm : m.storable = true := hwf
    simp [execSta_eq, hm, hres, storeOf, storeAddress, storedByte, replayWrites]
  | asl o | rol o | lsr o | ror o =>
    cases o with
    | acc => rfl
    | mem m =>
      obtain ⟨hres, hop⟩ := reads_setMem ((agrees_modifyAccesses _).1 h)
      have hm : m.modifiable = true := hwf
      simp [shift_mem, hm, hres, hop, operand_of_modifiable, storeOf, storeAddress,
        storedByte_asl, storedByte_rol, storedByte_lsr, storedByte_ror, replayWrites]
  | dec m | inc m =>
    obtain ⟨hres, hop⟩ := reads_setMem ((agrees_modifyAccesses _).1 h)
    have hm : m.modifiable = true := hwf
    simp [modifyZN_eq, hm, hres, hop, operand_of_modifiable, storeOf, storeAddress,
      storedByte_dec, storedByte_inc, replayWrites]
  | _ => rfl

/-! ## The fetch on another memory -/

/-- `40_address_resolver.md` R101: an operation with an operand mode reads both bytes after its
opcode. -/
theorem reads_after_opcode {o : MemOp} {m : Mode} {s : State} {μ : Memory}
    (h : Agrees μ s (instrAccesses (o.instr m) s)) :
    μ.read (s.pc + 1) = s.read (s.pc + 1) ∧ μ.read (s.pc + 2) = s.read (s.pc + 2) := by
  have hresolver : Agrees μ s (resolverReads m s) := by
    cases o <;> exact ((agrees_append _ _).1 h).1
  obtain ⟨⟨h1, h2, -⟩, -⟩ : (_ ∧ _ ∧ _) ∧ _ := by
    simpa only [resolverReads, agrees_append, agrees_read_cons] using hresolver
  exact ⟨h1, h2⟩

/-- The operand bytes of an opcode's class are among the bytes its instruction reads. -/
theorem operands_setMem {cls : OpcodeClass} {op lo hi : Byte} {s : State} {μ : Memory}
    (h : Agrees μ s (instrAccesses (cls.instr op lo hi) s)) :
    cls.operands (μ.read (s.pc + 1)) (μ.read (s.pc + 2)) =
      cls.operands (s.read (s.pc + 1)) (s.read (s.pc + 2)) := by
  cases cls with
  | mem o kind =>
    obtain ⟨h1, h2⟩ := reads_after_opcode h
    rw [h1, h2]
  | rel o =>
    have h1 : μ.read (s.pc + 1) = s.read (s.pc + 1) := by
      cases o <;> exact ((agrees_read_cons _ _).1 h).1
    rw [OpcodeClass.operands, h1]
    rfl
  | _ => rfl

/-- The decoder ignores the bytes that its instruction does not read. -/
theorem fetchInstr_setMem {halt : Option Byte} {s : State} {μ : Memory}
    (hop : μ.read s.pc = s.read s.pc) (h : Agrees μ s (instrAccesses (fetchInstr halt s) s)) :
    fetchInstr halt (s.setMem μ) = fetchInstr halt s := by
  rw [fetchInstr, State.setMem_pc, State.setMem_read, hop]
  exact OpcodeClass.instr_congr _ (operands_setMem h)

/-- Settles O30: the other memory gives the same instruction, by `fetchInstr_setMem`, and the same
outcome of it, by `exec_setMem`. -/
theorem stepDependsOnlyOnTheBytesItReads : Obligations.StepDependsOnlyOnTheBytesItReads := by
  intro params s μ h
  change stepWith params (s.setMem μ) =
    mapNext (State.setMem · (replayWrites μ (stepAccesses params s))) (stepWith params s)
  cases hs : s.halted with
  | true => simp [stepWith_halted, hs]
  | false =>
    have hagrees : Agrees μ s (stepAccesses params s) := h
    obtain ⟨hop, hinstr⟩ : μ.read s.pc = s.read s.pc ∧
        Agrees μ s (instrAccesses (fetchInstr params.haltOpcode s) s) := by
      simpa [stepAccesses, hs] using hagrees
    rw [stepWith_running params _ hs, stepWith_running params (s.setMem μ) hs,
      fetchInstr_setMem hop hinstr, replayWrites_stepAccesses params hs,
      exec_setMem (wfFor_fetchInstr _ s) hinstr]

end Sys2Proof.Machine
end

section
/-! The halted error and the two illegal bytes (`60_exceptions.md` R231 to R233): the step raises
the one before it reads anything, the handlers raise the other two. -/

namespace Sys2Proof.Machine

/-- `60_exceptions.md` R233: the error is the step's own; no handler of a fetched instruction
raises it. -/
theorem exec_fetchInstr_ne_haltedViolation (halt : Option Byte) (s : State) :
    exec (fetchInstr halt s) s ≠ .fault .haltedViolation := by
  rw [ne_eq, exec_eq_fault_iff (wfFor_fetchInstr halt s)]
  simp

/-- `44_step_engine_and_halt.md` R201: the halted check reads nothing. -/
theorem stepAccesses_halted (params : Params) {s : State} (hs : s.halted = true) :
    stepAccesses params s = [] := by
  simp [stepAccesses, hs]

/-- Settles O7: a halted core raises the error at once, and a running one runs a handler, which
never raises it. -/
theorem haltedViolationExactlyWhileHalted : Obligations.HaltedViolationExactlyWhileHalted := by
  refine fun params s => ⟨⟨fun h => ?_, stepWith_halted params s⟩, stepAccesses_halted params⟩
  by_contra hs
  rw [stepWith_running params s (Bool.eq_false_of_not_eq_true hs)] at h
  exact exec_fetchInstr_ne_haltedViolation params.haltOpcode s h

/-- Settles O12: the handlers of the two illegal bytes do nothing but raise their errors. -/
theorem illegalBytesRaiseTheirErrors : Obligations.IllegalBytesRaiseTheirErrors :=
  fun b s => ⟨exec_illegalOpcode b s, exec_illegalMode b s⟩

end Sys2Proof.Machine
end

section
/-! Reset, the launch memory and the host's moves (`70_reset_and_hazards.md` R250 to R256), and the
cycle counts (R262). -/

namespace Sys2Proof.Machine

/-! ## The launch memory -/

/-- The built list holds the function's byte below `n` and lists nothing above. -/
theorem Memory.readKey_ofFn (f : Nat → Byte) (n k : Nat) :
    Memory.readKey k (Memory.ofFn f n) = if k < n then f k else Config.unlistedByte := by
  induction n with
  | zero => rfl
  | succ n ih =>
    rw [Memory.ofFn, Memory.readKey_writeKey, ih]
    by_cases hk : k = n
    · simp [hk]
    · have hlt : k < n ↔ k < n + 1 := by omega
      simp [hk, hlt]

/-- Settles O19: `Memory.ofFn` over all 65536 addresses is the memory. -/
theorem everyLaunchInputIsAMemory : Obligations.EveryLaunchInputIsAMemory := by
  intro f
  refine ⟨Memory.ofFn (fun k => f (BitVec.ofNat 16 k)) 65536, Memory.wf_ofFn _ _ le_rfl,
    fun w => ?_⟩
  rw [Memory.read, Memory.readKey_ofFn, if_pos w.isLt, BitVec.ofNat_toNat, BitVec.setWidth_eq]

/-! ## Reset -/

@[simp] theorem getFlag_zero (f : Flag) : getFlag 0 f = false := BitVec.getLsbD_zero

/-- Settles O16: the values are those `State.launch` lists; a running core first reads at its
`PC`. -/
theorem resetLeavesTheSpecsValues : Obligations.ResetLeavesTheSpecsValues := fun params _ =>
  ⟨rfl, rfl, rfl, rfl, rfl, rfl, getFlag_zero, rfl, ⟨_, stepAccesses_running params rfl⟩, rfl⟩

/-- Settles O17: the empty list is canonical, and a byte it does not list reads 0x00. -/
theorem resetMemoryIsCanonicalAndZero : Obligations.ResetMemoryIsCanonicalAndZero :=
  ⟨rfl, Memory.read_nil, rfl⟩

/-! ## The host's moves -/

/-- Clearing `halted` after HLT leaves the state before it with `PC` moved past its byte. -/
theorem writeHalted_false_after_hlt (params : Params) {s t : State} (h : exec .hlt s = .next t) :
    hostAct params (.writeHalted false) t = { s with pc := s.pc + 1, halted := false } := by
  rw [exec_hlt, commit_eq] at h
  cases h
  rfl

/-- Settles O59: reset is the launch over the same memory, and the resumed core runs what it fetches
from the byte after the HLT on. -/
theorem hostResetsAndResumes : Obligations.HostResetsAndResumes := by
  refine ⟨fun params s => ⟨rfl, fun w => rfl⟩, fun params s t h => ?_⟩
  have h2 : s.pc + 1 + 1 = s.pc + 2 := BitVec.add_assoc s.pc 1 1
  have h3 : s.pc + 1 + 2 = s.pc + 3 := BitVec.add_assoc s.pc 1 2
  rw [writeHalted_false_after_hlt params h, stepWith_running params _ rfl, ← h2, ← h3]
  rfl

/-! ## Cycle counts -/

/-- R262: the base counts of the eight modes and the page cross. -/
theorem readCycles_eq (m : Mode) (s : State) :
    some (readCycles m s) = [6, 3, 2, 4, 5, 4, 4, 4][m.sel]?.map (· + (resolve m s).extra) := by
  cases m <;> rfl

/-- `41_group1_alu_load_store.md` R129. -/
theorem storeCycles_eq {m : Mode} (h : m.storable = true) :
    some (storeCycles m) = [6, 3, 0, 4, 6, 4, 5, 5][m.sel]? := by
  cases m with
  | imm => simp [Mode.storable] at h
  | indX | zp | abs | indY | zpX | absY | absX => rfl

/-- `43_group0_branch_flag_bit.md` R189: the two modes of BIT cross no page. -/
theorem readCycles_of_bitTestable {m : Mode} (h : m.bitTestable = true) (s : State) :
    some (readCycles m s) = [0, 3, 0, 4][m.sel]? := by
  cases m with
  | zp | abs => rfl
  | indX | imm | indY | zpX | absY | absX => simp [Mode.bitTestable] at h

/-- `42_group2_shift_incdec_transfer.md` R149. -/
theorem modifyCycles_eq {m : Mode} (h : m.modifiable = true) :
    some (modifyCycles m) = [0, 5, 0, 6, 0, 6, 0, 7][m.sel]? := by
  cases m with
  | zp | abs | zpX | absX => rfl
  | indX | imm | indY | absY => simp [Mode.modifiable] at h

/-- `43_group0_branch_flag_bit.md` R180, with the pages as numbers. -/
theorem branchCycles_eq (cond : Bool) (off : Byte) (s : State) :
    branchCycles cond off s =
      if cond = false then 2
      else if (branchTarget s off).toNat / 256 = (s.pc + 2).toNat / 256 then 3 else 4 := by
  have hpage : hiByte (branchTarget s off) = hiByte (afterBranch s) ↔
      (branchTarget s off).toNat / 256 = (s.pc + 2).toNat / 256 := by
    rw [← BitVec.toNat_inj, hiByte_toNat, hiByte_toNat, afterBranch]
  cases cond <;> simp [branchCycles, hpage]

/-- Settles O56: the instructions of each list take the count of one operation, which has its table
above. -/
theorem cycleCounts : Obligations.CycleCounts := by
  intro h m s
  refine ⟨fun i hi => ?reads, storeCycles_eq, fun hm => readCycles_of_bitTestable hm s,
    fun hm i hi => ?modifies, ?constant, fun off b hb => ?branches, rfl⟩
  case reads =>
    have hcount : instrCycles h i s = readCycles m s := by
      revert i
      simp [instrCycles]
    rw [hcount, readCycles_eq]
  case modifies =>
    have hcount : instrCycles h i s = modifyCycles m := by
      revert i
      simp [instrCycles, shiftCycles]
    rw [hcount, modifyCycles_eq hm]
  case constant => simp [instrCycles, shiftCycles]
  case branches =>
    have hcount : instrCycles h b.1 s = branchCycles b.2 off s := by
      revert b
      simp [instrCycles]
    rw [hcount, branchCycles_eq]

end Sys2Proof.Machine
end
